-- ==== Sys2Proof/Word.lean ====
section
/-! DEFINITION. The words of the machine: the widths of 00_scope.md rule R6, and nothing else. -/

namespace Sys2Proof

/-- A 14-bit pattern: a DAG register, a generated address, a program address (R6, `AW` = 14). -/
abbrev Addr := BitVec 14

/-- A data memory word, a value on the DMD bus, a data register (R6, `DMW` = 16). -/
abbrev Word := BitVec 16

/-- A program memory word, a value on the PMD bus (R6, `PMW` = 24). -/
abbrev PmWord := BitVec 24

/-- The content of PX (R6, `PXW` = 8), and the unit in which the model stores memory (log entry 8). -/
abbrev Byte := BitVec 8

end Sys2Proof
end

