-- ==== Sys2Proof/Syntax.lean ====
section
/-! DEFINITION. The statements of 30_encoding.md rule R54: one constructor of `Instr` for each row of
spec/opcode_table.json, with operands named as the spec names them. A term may spell an operand that no statement has
(`DM(I0,M5)`); WellFormed.lean says which do not. -/

namespace Sys2Proof

/-- The two memory spaces (20_memory.md rules R27, R28); there is no other (R29). -/
inductive Space where
  | dm
  | pm
deriving DecidableEq, Repr

/-- The three register files of a DAG (10_state.md rule R11). -/
inductive DagFile where
  | index
  | modify
  | length
deriving DecidableEq, Repr

/-- One of the 24 DAG registers: `I0`..`I7`, `M0`..`M7`, `L0`..`L7` (R12). -/
structure DagReg where
  file : DagFile
  idx  : Fin 8
deriving DecidableEq, Repr

/-- `dag(k)` of 00_scope.md rule R9: registers 0..3 are DAG1's, 4..7 are DAG2's. -/
def dagOf (k : Fin 8) : Nat :=
  if k.val < 4 then 1 else 2

/-- The 16-bit registers that the open set `DREG` (10_state.md rule R21) draws its members from. The source names `AX0`
and `MX0`; the other names are the family's sixteen (93_implementation_defined.md G4) without `SE` and `MR2`, which are 8
bits wide and which decision D24 keeps out. PRESUMED, log entry 2. Which of them are members is `Platform.moreDreg`. -/
inductive DReg where
  | ax0 | ax1 | mx0 | mx1 | ay0 | ay1 | my0 | my1
  | si | ar | mr0 | mr1 | sr0 | sr1
deriving DecidableEq, Repr

/-- The place of a data register in its bank. -/
def DReg.slot : DReg → Fin 14
  | .ax0 => 0
  | .ax1 => 1
  | .mx0 => 2
  | .mx1 => 3
  | .ay0 => 4
  | .ay1 => 5
  | .my0 => 6
  | .my1 => 7
  | .si => 8
  | .ar => 9
  | .mr0 => 10
  | .mr1 => 11
  | .sr0 => 12
  | .sr1 => 13

/-- The source of a move over the DMD bus (40_dag_register_access.md rule R63): a data register, another DAG register,
or PX. -/
inductive MoveSrc where
  | dreg (r : DReg)
  | dag (x : DagReg)
  | px
deriving DecidableEq, Repr

/-- The register side of a direct data memory access (rules R65, R66): a data register or a DAG register. -/
inductive DirectReg where
  | dreg (r : DReg)
  | dag (x : DagReg)
deriving DecidableEq, Repr

/-- The statements. -/
inductive Instr where
  /-- `Xn=<imm14>;` (R62) -/
  | ldiDag (x : DagReg) (imm : Addr)
  /-- `Xn=r;` `Xn=Ym;` `Xn=PX;` (R63) -/
  | movToDag (x : DagReg) (src : MoveSrc)
  /-- `r=Xn;` (R64) -/
  | movFromDag (r : DReg) (x : DagReg)
  /-- `r=DM(<addr>);` `Xn=DM(<addr>);` (R65) -/
  | ldDmDirect (t : DirectReg) (addr : Addr)
  /-- `DM(<addr>)=r;` `DM(<addr>)=Xn;` (R66) -/
  | stDmDirect (addr : Addr) (src : DirectReg)
  /-- `r=DM(Ii,Mj);` (R74) -/
  | ldDmInd (r : DReg) (i j : Fin 8)
  /-- `DM(Ii,Mj)=r;` (R75) -/
  | stDmInd (i j : Fin 8) (r : DReg)
  /-- `r=PM(Ii,Mj);` (R99) -/
  | ldPmInd (r : DReg) (i j : Fin 8)
  /-- `PM(Ii,Mj)=r;` (R100) -/
  | stPmInd (i j : Fin 8) (r : DReg)
  /-- `PX=r;`, or any register readable on the DMD bus as its source (R101) -/
  | movToPx (src : MoveSrc)
  /-- `r=PX;` (R102) -/
  | movFromPx (r : DReg)
  /-- `ENA BIT_REV;` (R93) -/
  | enaBitRev
  /-- `DIS BIT_REV;` (R94) -/
  | disBitRev
  /-- `MSTAT=r;` (R95) -/
  | movToMstat (r : DReg)
  /-- `JUMP (Ii);` (R107) with the condition code of the table's row -/
  | jumpInd (i : Fin 8) (c : BitVec 4)
  /-- `CALL (Ii);` (R107) with the condition code of the table's row -/
  | callInd (i : Fin 8) (c : BitVec 4)
deriving DecidableEq, Repr

end Sys2Proof
end

