-- ==== Sys2Proof/Config.lean ====
section
/-! DEFINITION. The open parameters of 00_scope.md rule R6, as data the statements quantify over, and the free values:
what the spec leaves without a value. A free value has no body, so nothing can be proved about it. -/

namespace Sys2Proof

/-- The value of an overlay register: an opaque name of a memory region (10_state.md rule R20). -/
structure OvlSel where
  id : Nat
deriving DecidableEq, Repr

/-- A triple of the parameter `BACKED` (20_memory.md rule R35): a space, the overlay selection in force, an address. -/
structure Place where
  space : Space
  sel   : OvlSel
  addr  : Addr
deriving DecidableEq, Repr

/-- One value of the functions `OVL_DM`, `OVL_PM` (20_memory.md rule R36): the cell that a place is. -/
structure Route where
  place : Place
  cell  : Nat
deriving DecidableEq, Repr

/-- The open parameters of the spec (00_scope.md rule R6), the platform's own. They are carried in the state as data that
no step changes, so that what is proved of every state is proved of every choice of them (log entries 2, 4, 5, 7). -/
structure Platform where
  /-- `OVL_DM` and `OVL_PM` (R36, decision D20): the cell of each place that has one of its own. An address with no
  route under any selection lies outside every overlay region. -/
  routes : List Route
  /-- The complement of `BACKED` (R35, decision D26): the places with no plain storage behind them. -/
  unbacked : List Place
  /-- `BIT_REV_POS` (10_state.md rule R19, decision D25): the bit of MSTAT that enables bit reversal. -/
  bitRevPos : Fin 7
  /-- The bit of MSTAT that selects the bank of data registers, if they are banked (R19, R21); a bit other than
  `bitRevPos`. -/
  bankPos : Option (Fin 7)
  /-- The members of `DREG` beside `AX0` and `MX0` (10_state.md rule R21, decision D24). -/
  moreDreg : List DReg
deriving DecidableEq, Repr

/-- FREE VALUE: the initial content of a byte lane that neither a loader nor a statement has written (20_memory.md rule
R45: "a draw of any 16-bit (DM) or 24-bit (PM) value"), by space and key. Log entry 9. -/
opaque Config.initialByte : Space → Nat → Byte

/-- FREE VALUE: the program address that follows the last one, 0x3FFF; its wrap-around is not in the source
(10_state.md rule R22). Log entry 11. -/
opaque Config.pcAfterTop : Addr

end Sys2Proof
end

