-- ==== Sys2Proof/WellFormed.lean ====
section
/-! DEFINITION. Which terms of `Instr` spell a statement: 30_encoding.md rules R52 and R55. -/

namespace Sys2Proof

/-- `DM(Ii,Mj)` is a legal operand exactly when both registers are of one DAG (R52, R55). -/
def dmOperandOk (i j : Fin 8) : Bool :=
  dagOf i == dagOf j

/-- `PM(Ii,Mj)` is a legal operand exactly when both registers are DAG2's (R52, R55, R29). -/
def pmOperandOk (i j : Fin 8) : Bool :=
  dagOf i == 2 && dagOf i == dagOf j

/-- A term is well formed when it spells a statement. The index of a register-indirect jump or call is `I4`..`I7`
(93_implementation_defined.md G7; PRESUMED, log entry 3). -/
def Instr.wellFormed : Instr → Bool
  | .ldDmInd _ i j => dmOperandOk i j
  | .stDmInd i j _ => dmOperandOk i j
  | .ldPmInd _ i j => pmOperandOk i j
  | .stPmInd i j _ => pmOperandOk i j
  | .jumpInd i _ => dagOf i == 2
  | .callInd i _ => dagOf i == 2
  | .ldiDag _ _ => true
  | .movToDag _ _ => true
  | .movFromDag _ _ => true
  | .ldDmDirect _ _ => true
  | .stDmDirect _ _ => true
  | .movToPx _ => true
  | .movFromPx _ => true
  | .enaBitRev => true
  | .disBitRev => true
  | .movToMstat _ => true

end Sys2Proof
end

