-- ==== Sys2Proof/Decode.lean ====
section
/-! DEFINITION. The decoder and the encoder of one 24-bit instruction word, from the patterns and register codes of
30_encoding.md section 7 and spec/opcode_table.json. The source prints no encoding (rule R46): these are the family's
patterns as the spec records them (93_implementation_defined.md G6). UNVERIFIED, log entry 1. -/

namespace Sys2Proof

/-- Why a word is no admitted statement (30_encoding.md rules R54, R55). Safe: such a word is refused by this name. -/
inductive Reject where
  /-- No pattern of section 7 matches: a statement outside the admitted forms, the dual access (R76) among them. -/
  | noPattern
  /-- The word names `SE` or `MR2`, 8-bit registers, which are no members of `DREG` (92_eei_decisions.md D24). -/
  | narrowDataRegister
  /-- The statement names a data register that the platform does not count among `DREG` (D24, `Platform.moreDreg`). -/
  | outsideDreg
  /-- The register code stands for no register of its group. -/
  | noSuchRegister
  /-- The word names a register of group 11 that the spec leaves out (00_scope.md rule R4), such as `ASTAT`. -/
  | registerOutOfScope
  /-- The registers are known but their pairing is no admitted form (`AX0=AX1;`, `MSTAT=I0;`, `AX0=MSTAT;`). -/
  | formNotAdmitted
deriving DecidableEq, Repr

/-- `v[hi:lo]` of 00_scope.md rule R7, on the word read as a number. -/
def field (w hi lo : Nat) : Nat :=
  w / 2 ^ lo % 2 ^ (hi + 1 - lo)

/-- A register as a group and a code name it. -/
inductive CodedReg where
  | dreg (r : DReg)
  | dag (x : DagReg)
  | px
  | mstat
deriving DecidableEq, Repr

/-- Group 00: the data registers. -/
def dregOfCode : Nat → Except Reject DReg
  | 0 => .ok .ax0
  | 1 => .ok .ax1
  | 2 => .ok .mx0
  | 3 => .ok .mx1
  | 4 => .ok .ay0
  | 5 => .ok .ay1
  | 6 => .ok .my0
  | 7 => .ok .my1
  | 8 => .ok .si
  | 9 => .error .narrowDataRegister
  | 10 => .ok .ar
  | 11 => .ok .mr0
  | 12 => .ok .mr1
  | 13 => .error .narrowDataRegister
  | 14 => .ok .sr0
  | 15 => .ok .sr1
  | _ => .error .noSuchRegister

/-- The register of a DAG whose number within the DAG is `k`; `second` selects DAG2. -/
def dagIndex (second : Bool) (k : Nat) : Fin 8 :=
  Fin.ofNat 8 (k % 4 + if second then 4 else 0)

/-- Groups 01 and 10: `I`, `M`, `L` at codes 0-3, 4-7, 8-11. -/
def dagRegOfCode (second : Bool) (c : Nat) : Except Reject DagReg :=
  if c < 4 then .ok ⟨.index, dagIndex second c⟩
  else if c < 8 then .ok ⟨.modify, dagIndex second c⟩
  else if c < 12 then .ok ⟨.length, dagIndex second c⟩
  else .error .noSuchRegister

/-- A register group and code. -/
def regOfCode (g c : Nat) : Except Reject CodedReg :=
  if g = 0 then (dregOfCode c).map .dreg
  else if g = 1 then (dagRegOfCode false c).map .dag
  else if g = 2 then (dagRegOfCode true c).map .dag
  else if c = 1 then .ok .mstat
  else if c = 7 then .ok .px
  else if c < 14 then .error .registerOutOfScope
  else .error .noSuchRegister

/-- The register-to-register moves the spec admits (R63, R64, R95, R101, R102). -/
def moveForm : CodedReg → CodedReg → Except Reject Instr
  | .dag x, .dreg r => .ok (.movToDag x (.dreg r))
  | .dag x, .dag y => .ok (.movToDag x (.dag y))
  | .dag x, .px => .ok (.movToDag x .px)
  | .dreg r, .dag x => .ok (.movFromDag r x)
  | .dreg r, .px => .ok (.movFromPx r)
  | .px, .dreg r => .ok (.movToPx (.dreg r))
  | .px, .dag x => .ok (.movToPx (.dag x))
  | .px, .px => .ok (.movToPx .px)
  | .mstat, .dreg r => .ok (.movToMstat r)
  | .dreg _, .dreg _ => .error .formNotAdmitted
  | .mstat, .dag _ => .error .formNotAdmitted
  | .mstat, .px => .error .formNotAdmitted
  | .dag _, .mstat => .error .formNotAdmitted
  | .dreg _, .mstat => .error .formNotAdmitted
  | .px, .mstat => .error .formNotAdmitted
  | .mstat, .mstat => .error .formNotAdmitted

/-- The destination of `LDI_DAG`: a DAG register (R62). -/
def ldiForm (imm : Addr) : CodedReg → Except Reject Instr
  | .dag x => .ok (.ldiDag x imm)
  | .dreg _ => .error .formNotAdmitted
  | .px => .error .formNotAdmitted
  | .mstat => .error .formNotAdmitted

/-- The register side of a direct access: a data register or a DAG register (R65, R66). -/
def directForm : CodedReg → Except Reject DirectReg
  | .dreg r => .ok (.dreg r)
  | .dag x => .ok (.dag x)
  | .px => .error .formNotAdmitted
  | .mstat => .error .formNotAdmitted

/-- `0011 gg dddddddddddddd rrrr` -/
def decodeLdi (w : Nat) : Except Reject Instr := do
  let x ← regOfCode (field w 19 18) (field w 3 0)
  ldiForm (BitVec.ofNat 14 (field w 17 4)) x

/-- `1000 gg aaaaaaaaaaaaaa rrrr` -/
def decodeLdDirect (w : Nat) : Except Reject Instr := do
  let x ← regOfCode (field w 19 18) (field w 3 0)
  let t ← directForm x
  return .ldDmDirect t (BitVec.ofNat 14 (field w 17 4))

/-- `1001 gg aaaaaaaaaaaaaa rrrr` -/
def decodeStDirect (w : Nat) : Except Reject Instr := do
  let x ← regOfCode (field w 19 18) (field w 3 0)
  let t ← directForm x
  return .stDmDirect (BitVec.ofNat 14 (field w 17 4)) t

/-- `011 g d 0 00000 00 000 rrrr ii mm`: `g` selects the DAG, `d` the direction. -/
def decodeDmIndirect (w : Nat) : Except Reject Instr := do
  let r ← dregOfCode (field w 7 4)
  let i := dagIndex (field w 20 20 == 1) (field w 3 2)
  let j := dagIndex (field w 20 20 == 1) (field w 1 0)
  if field w 19 8 = 0 then return .ldDmInd r i j
  else if field w 19 8 = 0x800 then return .stDmInd i j r
  else .error .noPattern

/-- `0101 0 0 00000 00 000 rrrr ii mm` -/
def decodeLdPm (w : Nat) : Except Reject Instr := do
  let r ← dregOfCode (field w 7 4)
  return .ldPmInd r (dagIndex true (field w 3 2)) (dagIndex true (field w 1 0))

/-- `0101 1 0 00000 00 000 rrrr ii mm` -/
def decodeStPm (w : Nat) : Except Reject Instr := do
  let r ← dregOfCode (field w 7 4)
  return .stPmInd (dagIndex true (field w 3 2)) (dagIndex true (field w 1 0)) r

/-- `0000 1101 0000 DD SS dddd ssss` -/
def decodeMove (w : Nat) : Except Reject Instr := do
  let d ← regOfCode (field w 11 10) (field w 7 4)
  let s ← regOfCode (field w 9 8) (field w 3 0)
  moveForm d s

/-- `0000 1100 00 00 00 00 vv 00 00 00`: of the mode fields only the bit-reverse one is admitted, enabled or disabled. -/
def decodeMode (w : Nat) : Except Reject Instr :=
  if field w 7 0 = 0xC0 then .ok .enaBitRev
  else if field w 7 0 = 0x80 then .ok .disBitRev
  else .error .noPattern

/-- `0000 1011 0000 0000 ii 0 t cccc` -/
def decodeTransfer (w : Nat) : Except Reject Instr :=
  if field w 5 4 = 0 then .ok (.jumpInd (dagIndex true (field w 7 6)) (BitVec.ofNat 4 (field w 3 0)))
  else if field w 5 4 = 1 then .ok (.callInd (dagIndex true (field w 7 6)) (BitVec.ofNat 4 (field w 3 0)))
  else .error .noPattern

/-- The decoder, on the word read as a number: the fixed bits of the rows of section 7 in turn. -/
def decodeNat (w : Nat) : Except Reject Instr :=
  if field w 23 20 = 3 then decodeLdi w
  else if field w 23 20 = 8 then decodeLdDirect w
  else if field w 23 20 = 9 then decodeStDirect w
  else if field w 23 21 = 3 then decodeDmIndirect w
  else if field w 23 8 = 0x5000 then decodeLdPm w
  else if field w 23 8 = 0x5800 then decodeStPm w
  else if field w 23 12 = 0x0D0 then decodeMove w
  else if field w 23 8 = 0x0C00 then decodeMode w
  else if field w 23 8 = 0x0B00 then decodeTransfer w
  else .error .noPattern

/-- The decoder: total on every 24-bit word. -/
def decode (w : PmWord) : Except Reject Instr :=
  decodeNat w.toNat

/-- The host's view of the decoder: an instruction of the table is one word, whose bits above `nbits` are 0. -/
def decodeTableWord (nbits w : Nat) : Option Instr :=
  (decode (BitVec.ofNat 24 (w % 2 ^ nbits))).toOption

/-! The encoder, from the same tables. -/

/-- The code of a data register in group 00. -/
def DReg.code : DReg → Nat
  | .ax0 => 0
  | .ax1 => 1
  | .mx0 => 2
  | .mx1 => 3
  | .ay0 => 4
  | .ay1 => 5
  | .my0 => 6
  | .my1 => 7
  | .si => 8
  | .ar => 10
  | .mr0 => 11
  | .mr1 => 12
  | .sr0 => 14
  | .sr1 => 15

/-- The code of a register file's first register. -/
def DagFile.code : DagFile → Nat
  | .index => 0
  | .modify => 4
  | .length => 8

/-- The code of a DAG register within its group. -/
def DagReg.code (x : DagReg) : Nat :=
  x.file.code + x.idx.val % 4

/-- Group and code of a register. -/
def CodedReg.group : CodedReg → Nat
  | .dreg _ => 0
  | .dag x => dagOf x.idx
  | .px => 3
  | .mstat => 3

/-- The code half of `CodedReg.group`. -/
def CodedReg.code : CodedReg → Nat
  | .dreg r => r.code
  | .dag x => x.code
  | .px => 7
  | .mstat => 1

/-- A move source as a coded register. -/
def MoveSrc.coded : MoveSrc → CodedReg
  | .dreg r => .dreg r
  | .dag x => .dag x
  | .px => .px

/-- The register of a direct access as a coded register. -/
def DirectReg.coded : DirectReg → CodedReg
  | .dreg r => .dreg r
  | .dag x => .dag x

/-- `0000 1101 0000 DD SS dddd ssss` -/
def encodeMove (d s : CodedReg) : Nat :=
  0x0D0 * 2 ^ 12 + d.group * 2 ^ 10 + s.group * 2 ^ 8 + d.code * 2 ^ 4 + s.code

/-- A leading nibble, then `gg aaaaaaaaaaaaaa rrrr`. -/
def encodeLong (nibble : Nat) (x : CodedReg) (a : Addr) : Nat :=
  nibble * 2 ^ 20 + x.group * 2 ^ 18 + a.toNat * 2 ^ 4 + x.code

/-- The bits above `rrrr ii mm`, then the data register and the numbers within the DAG. -/
def encodeIndirect (top : Nat) (r : DReg) (i j : Fin 8) : Nat :=
  top * 2 ^ 8 + r.code * 2 ^ 4 + i.val % 4 * 2 ^ 2 + j.val % 4

/-- `0000 1011 0000 0000 ii tt cccc` -/
def encodeTransfer (t : Nat) (i : Fin 8) (c : BitVec 4) : Nat :=
  0x0B00 * 2 ^ 8 + i.val % 4 * 2 ^ 6 + t * 2 ^ 4 + c.toNat

/-- The word of an instruction as a number; it stands for the instruction when that is well formed. -/
def encodeNat : Instr → Nat
  | .ldiDag x imm => encodeLong 3 (.dag x) imm
  | .movToDag x src => encodeMove (.dag x) src.coded
  | .movFromDag r x => encodeMove (.dreg r) (.dag x)
  | .ldDmDirect t a => encodeLong 8 t.coded a
  | .stDmDirect a s => encodeLong 9 s.coded a
  | .ldDmInd r i j => encodeIndirect (0x6000 + 0x1000 * (dagOf i - 1)) r i j
  | .stDmInd i j r => encodeIndirect (0x6800 + 0x1000 * (dagOf i - 1)) r i j
  | .ldPmInd r i j => encodeIndirect 0x5000 r i j
  | .stPmInd i j r => encodeIndirect 0x5800 r i j
  | .movToPx src => encodeMove .px src.coded
  | .movFromPx r => encodeMove (.dreg r) .px
  | .enaBitRev => 0x0C00C0
  | .disBitRev => 0x0C0080
  | .movToMstat r => encodeMove .mstat (.dreg r)
  | .jumpInd i c => encodeTransfer 0 i c
  | .callInd i c => encodeTransfer 1 i c

/-- The word of a well-formed instruction. -/
def encode (i : Instr) : PmWord :=
  BitVec.ofNat 24 (encodeNat i)

end Sys2Proof
end

