-- ==== Sys2Proof/Machine/State.lean ====
section
/-! DEFINITION. The state of the machine (10_state.md), its value after reset, and the reasons a step can stop. -/

namespace Sys2Proof.Machine

/-- A memory: the byte lanes that a loader or a statement has written, as pairs of a key and a byte. A lane that is not
listed reads as `Config.initialByte` (log entries 8, 9). -/
abbrev Memory := List Host.Cell

/-- The canonical form of a memory: keys strictly rising, so no key twice. -/
abbrev Memory.wf (m : Memory) : Prop :=
  m.Pairwise fun a b => a.1 < b.1

/-- The state. All fields are architectural but the last two, which are the model's own (`pmWritten`: rule R43;
`platform`: rule R6). -/
structure State where
  /-- `I0`..`I7` (R13) -/
  iReg : Vector Addr 8
  /-- `M0`..`M7` (R14) -/
  mReg : Vector Addr 8
  /-- `L0`..`L7` (R15) -/
  lReg : Vector Addr 8
  /-- PX (R18) -/
  px : Byte
  /-- MSTAT, the family's 7 bits (R19; PRESUMED, log entry 4) -/
  mstat : BitVec 7
  /-- PMOVLAY (R20) -/
  pmovlay : OvlSel
  /-- DMOVLAY (R20) -/
  dmovlay : OvlSel
  /-- The registers of `DREG` (R21), by `DReg.slot` -/
  primary : Vector Word 14
  /-- The second bank of them (R21, R19; PRESUMED, log entry 5) -/
  secondary : Vector Word 14
  /-- The program address of the current statement (R22) -/
  pc : Addr
  /-- Data memory (R27) -/
  dm : Memory
  /-- Program memory (R28) -/
  pm : Memory
  /-- The program memory cells that statements of this run have written, strictly rising (R43) -/
  pmWritten : List Nat
  /-- The open parameters (R6; log entries 2, 4, 5, 7) -/
  platform : Platform
deriving DecidableEq, Repr

/-- The machine right after reset. The spec gives no register a reset value (R26, R117, R118): every value here is the
model's (log entry 6), and the memories list nothing. The platform is the family's, as far as the spec records it as
general knowledge (log entries 2, 4, 5, 7). -/
def State.reset : State where
  iReg := Vector.replicate 8 0
  mReg := Vector.replicate 8 0
  lReg := Vector.replicate 8 0
  px := 0
  mstat := 0
  pmovlay := ⟨0⟩
  dmovlay := ⟨0⟩
  primary := Vector.replicate 14 0
  secondary := Vector.replicate 14 0
  pc := 0
  dm := []
  pm := []
  pmWritten := []
  platform :=
    { routes := []
      unbacked := []
      bitRevPos := 1
      bankPos := some 0
      moreDreg := [.ax1, .mx1, .ay0, .ay1, .my0, .my1, .si, .ar, .mr0, .mr1, .sr0, .sr1] }

/-- Conditions under which the machine takes no step. -/
inductive Fault where
  /-- An access, by a statement or by the fetch, to a word with no plain storage behind it (R35: "no step"; U17).
  Raised by `access`. Safe: a claim has to exclude it. -/
  | unbacked (p : Place)
deriving DecidableEq, Repr

/-- Conditions under which the model gives no meaning. All are safe: nothing can be proved of the state after. -/
inductive Refusal where
  /-- An instruction whose arm has no meaning yet. Raised by no arm: every instruction has its meaning. Safe. -/
  | notModelled (mnemonic : String)
  /-- A term that spells no statement (R55). Raised by `agen` and `agenPm`, never on a decoded word. Safe. -/
  | illFormedOperand
  /-- An indirect access with `L[i] != 0` and `I[i]` outside its circular buffer: the rule gives the access no result
  (R81, R83, decision D4). Raised by `modNext`. Safe. -/
  | indexOutsideBuffer
  /-- An indirect access with `L[i] != 0` and `|M[j]| >= L[i]`: the rule gives the access no result (R81, R82, decision
  D4). Raised by `modNext`. Safe. -/
  | modifyNotBelowLength
  /-- `JUMP (Ii);`, which R107 gives no executable meaning. Raised by `execJumpInd`. Safe. -/
  | registerIndirectJump
  /-- `CALL (Ii);`, which R107 gives no executable meaning. Raised by `execCallInd`. Safe. -/
  | registerIndirectCall
  /-- A fetched word that is no admitted statement (R54, R116). Raised by `step`. Safe. -/
  | notAdmitted (why : Reject)
  /-- A fetch of a program memory word that a statement of the same run has written (R43). Raised by `fetch`. Safe. -/
  | fetchOfWrittenWord
  /-- A fetch where no program has been loaded: there is no statement at the pc (R22). Raised by `fetch`. Safe. -/
  | noStatement
deriving DecidableEq, Repr

/-- What ends a step without a next state. -/
inductive Stop where
  | fault (f : Fault)
  | refuse (r : Refusal)
deriving DecidableEq, Repr

/-- The result of an operation: a value, or a stop. -/
abbrev Res (α : Type) := Except Stop α

end Sys2Proof.Machine
end

