-- ==== Sys2Proof/Machine/Flags.lean ====
section
/-! DEFINITION. Status and mode. No statement of the spec writes a flag (10_state.md rule R23), so there is no flag
computation; the one mode bit the source describes is a field of MSTAT (R19) at an open position, and the model adds the
register bank select of the family. The positions are `Platform`'s. -/

namespace Sys2Proof.Machine

/-- The bit of MSTAT at a position (R19). -/
def mstatBit (v : BitVec 7) (pos : Fin 7) : Bool :=
  v.getLsbD pos.val

/-- MSTAT with the bit at a position set or reset and every other field kept (R93, R94). -/
def withMstatBit (v : BitVec 7) (pos : Fin 7) (on : Bool) : BitVec 7 :=
  if on then v ||| BitVec.twoPow 7 pos.val else v &&& ~~~BitVec.twoPow 7 pos.val

/-- The content MSTAT takes from a 16-bit register: its lower 7 bits (R95; the width is PRESUMED, log entry 4). -/
def mstatOfWord (d : Word) : BitVec 7 :=
  d.setWidth 7

/-- `MSTAT.BIT_REV` (R19), at `BIT_REV_POS`. -/
def State.bitRev (s : State) : Bool :=
  mstatBit s.mstat s.platform.bitRevPos

/-- Whether the second bank of data registers is selected (R19, R21; log entry 5). The bit-reverse enable is not at the
same time a bank select. -/
def State.bankSel (s : State) : Bool :=
  match s.platform.bankPos with
  | some pos => pos != s.platform.bitRevPos && mstatBit s.mstat pos
  | none => false

end Sys2Proof.Machine
end

