-- ==== Sys2Proof/Machine/Ops.lean ====
section
/-! DEFINITION. The named operations over registers and memory. The hardware of this spec has no exception and no
interrupt to take (60_exceptions.md rules R110, R112, R113), so there is no operation that enters or leaves one. -/

namespace Sys2Proof.Machine

/-! ## Registers -/

/-- `I[i]` (00_scope.md rule R9). -/
def State.i (s : State) (k : Fin 8) : Addr := s.iReg[k]

/-- `M[j]` -/
def State.m (s : State) (k : Fin 8) : Addr := s.mReg[k]

/-- `L[i]` -/
def State.l (s : State) (k : Fin 8) : Addr := s.lReg[k]

/-- `I[i] <- v` -/
def State.setI (s : State) (k : Fin 8) (v : Addr) : State :=
  { s with iReg := s.iReg.set k v }

/-- `M[j] <- v` -/
def State.setM (s : State) (k : Fin 8) (v : Addr) : State :=
  { s with mReg := s.mReg.set k v }

/-- `L[i] <- v` -/
def State.setL (s : State) (k : Fin 8) (v : Addr) : State :=
  { s with lReg := s.lReg.set k v }

/-- `x[r]` (R9), in the bank that MSTAT selects (log entry 5). -/
def State.x (s : State) (r : DReg) : Word :=
  if s.bankSel then s.secondary[r.slot] else s.primary[r.slot]

/-- `x[r] <- v` (R9), in the bank that MSTAT selects (log entry 5). -/
def State.setX (s : State) (r : DReg) (v : Word) : State :=
  if s.bankSel then { s with secondary := s.secondary.set r.slot v }
  else { s with primary := s.primary.set r.slot v }

/-- The 14-bit content of a DAG register. -/
def State.dagReg (s : State) (x : DagReg) : Addr :=
  match x.file with
  | .index => s.i x.idx
  | .modify => s.m x.idx
  | .length => s.l x.idx

/-- A plain load of a DAG register: the modulus logic takes no part (R58, R86). -/
def State.setDagReg (s : State) (x : DagReg) (v : Addr) : State :=
  match x.file with
  | .index => s.setI x.idx v
  | .modify => s.setM x.idx v
  | .length => s.setL x.idx v

/-- `PX <- v` -/
def State.setPx (s : State) (v : Byte) : State :=
  { s with px := v }

/-- Whether the platform counts a data register among `DREG` (R21, decision D24): `AX0` and `MX0` always. -/
def State.hasDreg (s : State) (r : DReg) : Bool :=
  r == .ax0 || r == .mx0 || s.platform.moreDreg.contains r

/-- A write of MSTAT as a whole. -/
def State.setMstat (s : State) (v : BitVec 7) : State :=
  { s with mstat := v }

/-- `MSTAT.BIT_REV <- on` (R93, R94). -/
def State.setBitRev (s : State) (on : Bool) : State :=
  s.setMstat (withMstatBit s.mstat s.platform.bitRevPos on)

/-- The address of the next statement in the program text (R22, R106): the next program memory word. What follows the
last one is a free value (log entry 11). -/
def nextPc (pc : Addr) : Addr :=
  if pc = 0x3FFF then Config.pcAfterTop else pc + 1

/-- `pc <- next statement` (R106). -/
def State.advance (s : State) : State :=
  { s with pc := nextPc s.pc }

/-! ## Memory -/

/-- The byte listed under a key. -/
def Memory.lookup : Memory → Nat → Option Byte
  | [], _ => none
  | (a, v) :: rest, k => if k = a then some v else Memory.lookup rest k

/-- List a byte under a key, keeping the keys rising. -/
def Memory.put : Memory → Nat → Byte → Memory
  | [], k, b => [(k, b)]
  | (a, v) :: rest, k, b =>
    if k < a then (k, b) :: (a, v) :: rest
    else if k = a then (k, b) :: rest
    else (a, v) :: Memory.put rest k b

/-- Add a number to a strictly rising list. -/
def insertNat : List Nat → Nat → List Nat
  | [], k => [k]
  | a :: rest, k =>
    if k < a then k :: a :: rest else if k = a then a :: rest else a :: insertNat rest k

/-- The overlay register of a space (R20). -/
def State.sel (s : State) : Space → OvlSel
  | .dm => s.dmovlay
  | .pm => s.pmovlay

/-- Whether an address lies in an overlay region of its space: some selection has a route for it (R36). -/
def inOverlay (p : Platform) (sp : Space) (a : Addr) : Bool :=
  p.routes.any fun r => r.place.space == sp && r.place.addr == a

/-- `OVL_DM` and `OVL_PM` (20_memory.md rule R36): the cell that an address reaches under a selection, the route's where
the platform lists one, and else the cell of the address's own number. -/
def cellOf (p : Platform) (sp : Space) (sel : OvlSel) (a : Addr) : Nat :=
  match p.routes.find? fun r => r.place == ⟨sp, sel, a⟩ with
  | some r => r.cell
  | none => a.toNat

/-- The cell that an address reaches now (R36). -/
def State.cell (s : State) (sp : Space) (a : Addr) : Nat :=
  cellOf s.platform sp (s.sel sp) a

/-- The place of `BACKED` that an access now is to (R35). -/
def State.place (s : State) (sp : Space) (a : Addr) : Place :=
  ⟨sp, s.sel sp, a⟩

/-- Whether plain storage answers an address now (R35). -/
def State.backed (s : State) (sp : Space) (a : Addr) : Bool :=
  !s.platform.unbacked.contains (s.place sp a)

/-- An access finds plain storage, or there is no step (R35). -/
def access (s : State) (sp : Space) (a : Addr) : Res Unit :=
  if s.backed sp a then .ok () else .error (.fault (.unbacked (s.place sp a)))

/-- One byte lane of data memory; lanes `2c` and `2c+1` are bits 7:0 and 15:8 of the word in cell `c`. -/
def State.dmByte (s : State) (k : Nat) : Byte :=
  (s.dm.lookup k).getD (Config.initialByte .dm k)

/-- One byte lane of program memory; lanes `3c`, `3c+1`, `3c+2` are bits 7:0, 15:8 and 23:16 of the word in cell `c`. -/
def State.pmByte (s : State) (k : Nat) : Byte :=
  (s.pm.lookup k).getD (Config.initialByte .pm k)

/-- The data memory word in a cell. -/
def State.dmWord (s : State) (c : Nat) : Word :=
  s.dmByte (2 * c + 1) ++ s.dmByte (2 * c)

/-- The program memory word in a cell. -/
def State.pmWord (s : State) (c : Nat) : PmWord :=
  s.pmByte (3 * c + 2) ++ s.pmByte (3 * c + 1) ++ s.pmByte (3 * c)

/-- A memory with a 16-bit word in the two lanes of a cell. -/
def Memory.putWord16 (m : Memory) (c : Nat) (v : Word) : Memory :=
  (m.put (2 * c) (v.extractLsb' 0 8)).put (2 * c + 1) (v.extractLsb' 8 8)

/-- A memory with a 24-bit word in the three lanes of a cell. -/
def Memory.putWord24 (m : Memory) (c : Nat) (v : PmWord) : Memory :=
  ((m.put (3 * c) (v.extractLsb' 0 8)).put (3 * c + 1) (v.extractLsb' 8 8)).put (3 * c + 2) (v.extractLsb' 16 8)

/-- The word stored in a data memory cell. -/
def State.setDmWord (s : State) (c : Nat) (v : Word) : State :=
  { s with dm := s.dm.putWord16 c v }

/-- The word stored in a program memory cell. -/
def State.setPmWord (s : State) (c : Nat) (v : PmWord) : State :=
  { s with pm := s.pm.putWord24 c v }

/-- Record that a statement of this run wrote a program memory cell (R43). -/
def State.markWritten (s : State) (c : Nat) : State :=
  { s with pmWritten := insertNat s.pmWritten c }

/-- `MemRead(DM, a, 16)` (R9, R36). -/
def readDm (s : State) (a : Addr) : Res Word := do
  access s .dm a
  return s.dmWord (s.cell .dm a)

/-- `MemWrite(DM, a, 16, v)` (R9, R36). -/
def writeDm (s : State) (a : Addr) (v : Word) : Res State := do
  access s .dm a
  return s.setDmWord (s.cell .dm a) v

/-- `MemRead(PM, a, 24)` (R9, R36). -/
def readPm (s : State) (a : Addr) : Res PmWord := do
  access s .pm a
  return s.pmWord (s.cell .pm a)

/-- `MemWrite(PM, a, 24, v)` (R9, R36), recorded for rule R43. -/
def writePm (s : State) (a : Addr) (v : PmWord) : Res State := do
  access s .pm a
  return (s.setPmWord (s.cell .pm a) v).markWritten (s.cell .pm a)

/-! ## Fetch and outcome -/

/-- The program word in a cell, if all of it has been loaded or written. -/
def State.pmWord? (s : State) (c : Nat) : Option PmWord := do
  let hi ← s.pm.lookup (3 * c + 2)
  let mid ← s.pm.lookup (3 * c + 1)
  let lo ← s.pm.lookup (3 * c)
  return hi ++ mid ++ lo

/-- Fetching the instruction word at the pc: all 24 bits of the word that PMOVLAY selects (R32, R109); PX takes no part
(R103). A word that the run has written is refused (R43). -/
def fetch (s : State) : Res PmWord :=
  match access s .pm s.pc with
  | .error e => .error e
  | .ok _ =>
    if s.pmWritten.contains (s.cell .pm s.pc) then .error (.refuse .fetchOfWrittenWord)
    else match s.pmWord? (s.cell .pm s.pc) with
      | some w => .ok w
      | none => .error (.refuse .noStatement)

/-- The outcome of a meaning. -/
def finish : Res State → Host.Outcome State Fault Refusal
  | .ok s => .next s
  | .error (.fault f) => .fault f
  | .error (.refuse r) => .refused r

end Sys2Proof.Machine
end

