-- ==== Sys2Proof/Machine/AddressGen.lean ====
section
/-! DEFINITION. Address generation: bit reversal (43_bit_reverse.md), modulo addressing (42_modulo_addressing.md), and
`AGEN`, the one operation a DAG performs for an indirect access (41_indirect_addressing.md rule R67). -/

namespace Sys2Proof.Machine

/-- The signed value of a 14-bit pattern (00_scope.md rule R8). -/
def sval14 (p : Addr) : Int :=
  if p.toNat < 8192 then p.toNat else (p.toNat : Int) - 16384

/-- The 14-bit pattern of an integer modulo 2^14 (R9). -/
def trunc14 (z : Int) : Addr :=
  BitVec.ofNat 14 (z % 16384).toNat

/-- `BITREV14` (R89): bit `k` of the result is bit `13-k` of the address. -/
def bitRev14 (a : Addr) : Addr :=
  BitVec.ofFnLE fun k : Fin 14 => a.getLsbD (13 - k.val)

/-- The smallest `k >= n` with `len <= 2^k`, looked for in `fuel` steps. -/
def exponentFrom (len : Nat) : Nat → Nat → Nat
  | 0, n => n
  | fuel + 1, n => if len ≤ 2 ^ n then n else exponentFrom len fuel (n + 1)

/-- `n(L)` (R78): the smallest `n` with `L <= 2^n`; 14 is enough for every 14-bit length. -/
def bufferExponent (len : Nat) : Nat :=
  exponentFrom len 14 0

/-- The base address `B(I, L)` (R80): I with its low `n(L)` bits cleared. -/
def bufferBase (i len : Nat) : Nat :=
  i - i % 2 ^ bufferExponent len

/-- I lies inside the buffer that the modulus logic works on (R83). -/
def inBuffer (i l : Addr) : Bool :=
  decide (i.toNat - bufferBase i.toNat l.toNat < l.toNat)

/-- The condition `|M| < L` (R82). -/
def modifyBelowLength (m l : Addr) : Bool :=
  decide ((sval14 m).natAbs < l.toNat)

/-- `MODNEXT(I, M, L)`, called only with `L != 0` (R81), with its two refusals: I outside the buffer (R83), then
`|M| >= L` (R82; decision D4, log entry 10). -/
def modNext (i m l : Addr) : Res Addr :=
  if inBuffer i l = false then .error (.refuse .indexOutsideBuffer)
  else if modifyBelowLength m l = false then .error (.refuse .modifyNotBelowLength)
  else
    let base : Int := bufferBase i.toNat l.toNat
    .ok (trunc14 (((i.toNat : Int) + sval14 m - base) % (l.toNat : Int) + base))

/-- The linear update (R71). -/
def linearNext (i m : Addr) : Addr :=
  trunc14 ((i.toNat : Int) + sval14 m)

/-- The updated I of an access: linear when the length is 0, else by the modulus logic (R70). -/
def postModify (i m l : Addr) : Res Addr :=
  if l = 0 then .ok (linearNext i m) else modNext i m l

/-- The address put out by a DAG for an index register's content: reversed for DAG1 while the mode is on (R90, R92). -/
def outputAddr (bitRev : Bool) (k : Fin 8) (a : Addr) : Addr :=
  if dagOf k = 1 ∧ bitRev = true then bitRev14 a else a

/-- The address that an indirect access through `I[i]` puts out now (R67, R68, R90). -/
def State.outAddr (s : State) (i : Fin 8) : Addr :=
  outputAddr s.bitRev i (s.i i)

/-- The content that an indirect access through `I[i]`, `M[j]` leaves in `I[i]` (R67, R69). -/
def State.nextI (s : State) (i j : Fin 8) : Res Addr :=
  postModify (s.i i) (s.m j) (s.l i)

/-- The two results of `AGEN`: the address put out and the new I (R67). -/
structure AgenResult where
  out  : Addr
  next : Addr
deriving DecidableEq, Repr

/-- `AGEN(i, j)` (R67), but for the write of `I[i]`, which the statement makes after its access (R69, R73). Registers of
two DAGs form no operand (R55). -/
def agen (s : State) (i j : Fin 8) : Res AgenResult :=
  if dmOperandOk i j then do
    let next ← s.nextI i j
    return ⟨s.outAddr i, next⟩
  else .error (.refuse .illFormedOperand)

/-- `AGEN(i, j)` for a program memory access: both registers are DAG2's (R29, R55). -/
def agenPm (s : State) (i j : Fin 8) : Res AgenResult :=
  if pmOperandOk i j then agen s i j else .error (.refuse .illFormedOperand)

end Sys2Proof.Machine
end

