-- ==== Sys2Proof/Machine/Operands.lean ====
section
/-! DEFINITION. Operand forms: what registers put on the DMD bus and take from it (40_dag_register_access.md rules R58
to R60; 44_bus_exchange.md rules R101, R102), and how a program memory word splits (20_memory.md rule R32). -/

namespace Sys2Proof.Machine

/-- `d[13:0]`: what a DAG register keeps of a DMD bus value (R58). -/
def dagOfBus (d : Word) : Addr :=
  d.extractLsb' 0 14

/-- The DMD bus value of a DAG register: zeros in the upper 2 bits for I and L (R59), the sign for M (R60). -/
def busOfDag (file : DagFile) (v : Addr) : Word :=
  match file with
  | .index => v.setWidth 16
  | .modify => v.signExtend 16
  | .length => v.setWidth 16

/-- The DMD bus value of PX: the upper 8 bits are zeroes (R102). -/
def busOfPx (v : Byte) : Word :=
  v.setWidth 16

/-- What PX keeps of a DMD bus value: the lower 8 bits (R101). -/
def pxOfBus (d : Word) : Byte :=
  d.extractLsb' 0 8

/-- Read a DAG register over the DMD bus; nothing changes (R61). -/
def State.readDag (s : State) (x : DagReg) : Word :=
  busOfDag x.file (s.dagReg x)

/-- Write a DAG register from the DMD bus (R58). -/
def State.writeDag (s : State) (x : DagReg) (d : Word) : State :=
  s.setDagReg x (dagOfBus d)

/-- The DMD bus value of a move's source (R63). -/
def State.moveValue (s : State) : MoveSrc → Word
  | .dreg r => s.x r
  | .dag x => s.readDag x
  | .px => busOfPx s.px

/-- The value that a direct store takes from its register (R66). -/
def State.directValue (s : State) : DirectReg → Word
  | .dreg r => s.x r
  | .dag x => s.readDag x

/-- The register that a direct load writes (R65). -/
def State.setDirect (s : State) (t : DirectReg) (d : Word) : State :=
  match t with
  | .dreg r => s.setX r d
  | .dag x => s.writeDag x d

/-- `w[23:8]`: the part of a program memory word that travels to the named register (R32). -/
def upperOf (w : PmWord) : Word :=
  w.extractLsb' 8 16

/-- `w[7:0]`: the part that travels to PX (R32). -/
def lowerOf (w : PmWord) : Byte :=
  w.extractLsb' 0 8

/-- `x[r] ++ PX`: the program memory word of a store (R32, R100). -/
def joinWord (hi : Word) (lo : Byte) : PmWord :=
  hi ++ lo

/-! The registers that a statement names and the set `DREG` (R21, 30_encoding.md rule R54). -/

/-- The data register of a move's source, if it is one. -/
def dregsOfSrc : MoveSrc → List DReg
  | .dreg r => [r]
  | .dag _ => []
  | .px => []

/-- The data register of a direct access, if it is one. -/
def dregsOfDirect : DirectReg → List DReg
  | .dreg r => [r]
  | .dag _ => []

/-- The data registers a statement names. -/
def dregsOf : Instr → List DReg
  | .ldiDag _ _ => []
  | .movToDag _ src => dregsOfSrc src
  | .movFromDag r _ => [r]
  | .ldDmDirect t _ => dregsOfDirect t
  | .stDmDirect _ src => dregsOfDirect src
  | .ldDmInd r _ _ => [r]
  | .stDmInd _ _ r => [r]
  | .ldPmInd r _ _ => [r]
  | .stPmInd _ _ r => [r]
  | .movToPx src => dregsOfSrc src
  | .movFromPx r => [r]
  | .enaBitRev => []
  | .disBitRev => []
  | .movToMstat r => [r]
  | .jumpInd _ _ => []
  | .callInd _ _ => []

/-- Every data register that a statement names is a member of `DREG`: R54's `r`. -/
def State.admits (s : State) (i : Instr) : Bool :=
  (dregsOf i).all s.hasDreg

/-- The admitted statement that a word stands for on this platform (R54; decision D24). -/
def State.statementOf (s : State) (w : PmWord) : Except Reject Instr :=
  match decode w with
  | .error why => .error why
  | .ok i => if s.admits i then .ok i else .error .outsideDreg

end Sys2Proof.Machine
end

