-- ==== Sys2Proof/Machine/BusExchange.lean ====
section
/-! DEFINITION. The PMD-DMD bus exchange unit: 44_bus_exchange.md rules R99 to R102. -/

namespace Sys2Proof.Machine

/-- `LD_PM_IND` (R99): the upper 16 bits go to the register, the lower 8 to PX. -/
def execLdPmInd (r : DReg) (i j : Fin 8) (s : State) : Host.Outcome State Fault Refusal :=
  finish do
    let g ← agenPm s i j
    let w ← readPm s g.out
    return (((s.setX r (upperOf w)).setPx (lowerOf w)).setI i g.next).advance

/-- `ST_PM_IND` (R100): the register supplies the upper 16 bits, PX the lower 8. -/
def execStPmInd (i j : Fin 8) (r : DReg) (s : State) : Host.Outcome State Fault Refusal :=
  finish do
    let g ← agenPm s i j
    let u ← writePm s g.out (joinWord (s.x r) s.px)
    return (u.setI i g.next).advance

/-- `MOV_TO_PX` (R101). -/
def execMovToPx (src : MoveSrc) (s : State) : Host.Outcome State Fault Refusal :=
  finish (.ok (s.setPx (pxOfBus (s.moveValue src))).advance)

/-- `MOV_FROM_PX` (R102). -/
def execMovFromPx (r : DReg) (s : State) : Host.Outcome State Fault Refusal :=
  finish (.ok (s.setX r (busOfPx s.px)).advance)

end Sys2Proof.Machine
end

