-- ==== Sys2Proof/Machine/Control.lean ====
section
/-! DEFINITION. Register-indirect jump and call: 45_control_transfer.md rule R107, "This spec therefore gives the two
statements no executable meaning: a model refuses them by name." -/

namespace Sys2Proof.Machine

/-- `JUMP_IND` (R107), refused by its own name. -/
def execJumpInd (_i : Fin 8) (_c : BitVec 4) (_s : State) : Host.Outcome State Fault Refusal :=
  finish (.error (.refuse .registerIndirectJump))

/-- `CALL_IND` (R107), refused by its own name. -/
def execCallInd (_i : Fin 8) (_c : BitVec 4) (_s : State) : Host.Outcome State Fault Refusal :=
  finish (.error (.refuse .registerIndirectCall))

end Sys2Proof.Machine
end

