-- ==== Sys2Proof/Machine/DagAccess.lean ====
section
/-! DEFINITION. DAG register access over the DMD bus and direct addressing: 40_dag_register_access.md. -/

namespace Sys2Proof.Machine

/-- `LDI_DAG` (R62). -/
def execLdiDag (x : DagReg) (imm : Addr) (s : State) : Host.Outcome State Fault Refusal :=
  finish (.ok (s.setDagReg x imm).advance)

/-- `MOV_TO_DAG` (R63). -/
def execMovToDag (x : DagReg) (src : MoveSrc) (s : State) : Host.Outcome State Fault Refusal :=
  finish (.ok (s.writeDag x (s.moveValue src)).advance)

/-- `MOV_FROM_DAG` (R64). -/
def execMovFromDag (r : DReg) (x : DagReg) (s : State) : Host.Outcome State Fault Refusal :=
  finish (.ok (s.setX r (s.readDag x)).advance)

/-- `LD_DM_DIRECT` (R65): no DAG takes part, and the address is never reversed (R92). -/
def execLdDmDirect (t : DirectReg) (addr : Addr) (s : State) : Host.Outcome State Fault Refusal :=
  finish do
    let d ← readDm s addr
    return (s.setDirect t d).advance

/-- `ST_DM_DIRECT` (R66). -/
def execStDmDirect (addr : Addr) (src : DirectReg) (s : State) : Host.Outcome State Fault Refusal :=
  finish do
    let u ← writeDm s addr (s.directValue src)
    return u.advance

end Sys2Proof.Machine
end

