-- ==== Sys2Proof/Machine/Indirect.lean ====
section
/-! DEFINITION. Data memory access by indirect addressing: 41_indirect_addressing.md rules R74, R75. -/

namespace Sys2Proof.Machine

/-- `LD_DM_IND` (R74): the access at the old I, then the data register and I are written (R73). -/
def execLdDmInd (r : DReg) (i j : Fin 8) (s : State) : Host.Outcome State Fault Refusal :=
  finish do
    let g ← agen s i j
    let d ← readDm s g.out
    return ((s.setX r d).setI i g.next).advance

/-- `ST_DM_IND` (R75). -/
def execStDmInd (i j : Fin 8) (r : DReg) (s : State) : Host.Outcome State Fault Refusal :=
  finish do
    let g ← agen s i j
    let u ← writeDm s g.out (s.x r)
    return (u.setI i g.next).advance

end Sys2Proof.Machine
end

