-- ==== Sys2Proof/Machine/Mode.lean ====
section
/-! DEFINITION. The statements that change MSTAT: 43_bit_reverse.md rules R93 to R95. A change governs the next
statement (R125). -/

namespace Sys2Proof.Machine

/-- `ENA_BIT_REV` (R93). -/
def execEnaBitRev (s : State) : Host.Outcome State Fault Refusal :=
  finish (.ok (s.setBitRev true).advance)

/-- `DIS_BIT_REV` (R94). -/
def execDisBitRev (s : State) : Host.Outcome State Fault Refusal :=
  finish (.ok (s.setBitRev false).advance)

/-- `MOV_TO_MSTAT` (R95): the bit-reverse bit and, with them, the family's other fields (log entries 4, 5). -/
def execMovToMstat (r : DReg) (s : State) : Host.Outcome State Fault Refusal :=
  finish (.ok (s.setMstat (mstatOfWord (s.x r))).advance)

end Sys2Proof.Machine
end

