-- ==== Sys2Proof/Machine/Dispatch.lean ====
section
/-! DEFINITION. The meaning of every instruction: one arm per constructor of Instr. -/

namespace Sys2Proof.Machine

def exec (i : Instr) (s : State) : Host.Outcome State Fault Refusal :=
  match i with
  | .ldiDag x imm => Sys2Proof.Machine.execLdiDag x imm s
  | .movToDag x src => Sys2Proof.Machine.execMovToDag x src s
  | .movFromDag r x => Sys2Proof.Machine.execMovFromDag r x s
  | .ldDmDirect t a => Sys2Proof.Machine.execLdDmDirect t a s
  | .stDmDirect a src => Sys2Proof.Machine.execStDmDirect a src s
  | .ldDmInd r ii jj => Sys2Proof.Machine.execLdDmInd r ii jj s
  | .stDmInd ii jj r => Sys2Proof.Machine.execStDmInd ii jj r s
  | .ldPmInd r ii jj => Sys2Proof.Machine.execLdPmInd r ii jj s
  | .stPmInd ii jj r => Sys2Proof.Machine.execStPmInd ii jj r s
  | .movToPx src => Sys2Proof.Machine.execMovToPx src s
  | .movFromPx r => Sys2Proof.Machine.execMovFromPx r s
  | .enaBitRev => Sys2Proof.Machine.execEnaBitRev s
  | .disBitRev => Sys2Proof.Machine.execDisBitRev s
  | .movToMstat r => Sys2Proof.Machine.execMovToMstat r s
  | .jumpInd ii c => Sys2Proof.Machine.execJumpInd ii c s
  | .callInd ii c => Sys2Proof.Machine.execCallInd ii c s

end Sys2Proof.Machine
end

