-- ==== Sys2Proof/Machine/Loader.lean ====
section
/-! DEFINITION. The loader: how a program and initialised buffers come into memory from outside, before a run
(20_memory.md rule R45; log entry 12). Loading is no statement's write, so rule R43 does not apply to it. -/

namespace Sys2Proof.Machine

/-- Put an instruction word at a program address, as loaded: it is then backed, and not written by the run. -/
def State.loadPmWord (s : State) (a : Addr) (w : PmWord) : State :=
  { s.setPmWord (s.cell .pm a) w with
    pmWritten := s.pmWritten.filter (· != s.cell .pm a)
    platform := { s.platform with unbacked := s.platform.unbacked.filter (· != s.place .pm a) } }

/-- Put initial values at consecutive data memory addresses (R45). -/
def State.loadDmWords (s : State) (a : Addr) : List Word → State
  | [] => s
  | v :: rest => (s.setDmWord (s.cell .dm a) v).loadDmWords (a + 1) rest

/-- Put a program at consecutive program addresses. -/
def State.loadProgram (s : State) (a : Addr) : List PmWord → State
  | [] => s
  | w :: rest => (s.loadPmWord a w).loadProgram (a + 1) rest

end Sys2Proof.Machine
end

