-- ==== Sys2Proof/Machine/Step.lean ====
section
/-! DEFINITION. One step: fetch, decode (under the platform's `DREG`), execute (00_scope.md rules R5, R10). -/

namespace Sys2Proof.Machine

/-- One step of the machine. -/
def step (s : State) : Host.Outcome State Fault Refusal :=
  match fetch s with
  | .error (.fault f) => .fault f
  | .error (.refuse r) => .refused r
  | .ok w =>
    match s.statementOf w with
    | .error why => .refused (.notAdmitted why)
    | .ok i => exec i s

/-- `s` with the instruction whose word is `w` loaded where `step` fetches next. -/
def State.withFetchWord (s : State) (nbits w : Nat) : State :=
  s.loadPmWord s.pc (BitVec.ofNat 24 (w % 2 ^ nbits))

end Sys2Proof.Machine
end

