-- ==== Sys2Proof/Machine/Assembly.lean ====
section
/-! DEFINITION. The assembler's and the linker's part of 30_encoding.md: immediates and addresses as a statement writes
them (R49 to R51, R53), data buffers (R56, R57) and their placement (42_modulo_addressing.md rule R79), and the
statement's own text (R47, R48, R54). -/

namespace Sys2Proof.Machine

/-- The immediate of a DAG register load (R51): -8192..16383, as a 14-bit pattern; other values are refused. -/
def immOfInt (z : Int) : Option Addr :=
  if -8192 ≤ z ∧ z ≤ 16383 then some (trunc14 z) else none

/-- The address of a direct operand (R53): 0..16383. -/
def addrOfInt (z : Int) : Option Addr :=
  if 0 ≤ z ∧ z ≤ 16383 then some (trunc14 z) else none

/-- A `.VAR` or `.VAR/CIRC` directive (R56, R57): a single-word variable has length 1. -/
structure VarDecl where
  name : String
  len  : Nat
  circ : Bool
  init : List Word
deriving DecidableEq, Repr

/-- A declared buffer with the address the linker chose for it. -/
structure Symbol where
  decl : VarDecl
  base : Addr
deriving DecidableEq, Repr

/-- What the linker owes a buffer: room, and for a circular one a base that is a multiple of `2^n(L)` (R57, R79). -/
def Symbol.placed (y : Symbol) : Bool :=
  decide (1 ≤ y.decl.len) && decide (y.base.toNat + y.decl.len ≤ 2 ^ 14) &&
    decide (y.decl.init.length ≤ y.decl.len) &&
    (!y.decl.circ || y.base.toNat % 2 ^ bufferExponent y.decl.len == 0)

/-- A number as a statement writes it (R49, R50). -/
inductive Literal where
  /-- a decimal or hexadecimal literal, with or without a minus sign -/
  | number (z : Int)
  /-- a buffer's name: its first address -/
  | address (name : String)
  /-- `length (name)`: the number of words declared -/
  | length (name : String)
deriving DecidableEq, Repr

/-- The value of a number under the linker's table (R50). -/
def Literal.value (table : List Symbol) : Literal → Option Int
  | .number z => some z
  | .address n => (table.find? (·.decl.name == n)).map fun y => (y.base.toNat : Int)
  | .length n => (table.find? (·.decl.name == n)).map fun y => (y.decl.len : Int)

/-- `Xn=<literal>;` (R50, R51, R62). -/
def assembleLdi (table : List Symbol) (x : DagReg) (z : Literal) : Option Instr :=
  ((z.value table).bind immOfInt).map (.ldiDag x)

/-- `t=DM(<literal>);` (R50, R53, R65). That `length (name)` may stand for the literal inside `DM( )` is not in the source:
DESIGN CHOICE, log entry 28. -/
def assembleLdDirect (table : List Symbol) (t : DirectReg) (z : Literal) : Option Instr :=
  ((z.value table).bind addrOfInt).map (.ldDmDirect t)

/-- `DM(<literal>)=s;` (R50, R53, R66), with the choice of log entry 28 on `length (name)` too. -/
def assembleStDirect (table : List Symbol) (z : Literal) (src : DirectReg) : Option Instr :=
  ((z.value table).bind addrOfInt).map fun a => .stDmDirect a src

/-- The words a buffer holds when the program starts (R45, R56). -/
def State.loadSymbol (s : State) (y : Symbol) : State :=
  s.loadDmWords y.base y.decl.init

/-! The text of a statement. -/

/-- The name of a data register (R48). -/
def dregText : DReg → String
  | .ax0 => "AX0"
  | .ax1 => "AX1"
  | .mx0 => "MX0"
  | .mx1 => "MX1"
  | .ay0 => "AY0"
  | .ay1 => "AY1"
  | .my0 => "MY0"
  | .my1 => "MY1"
  | .si => "SI"
  | .ar => "AR"
  | .mr0 => "MR0"
  | .mr1 => "MR1"
  | .sr0 => "SR0"
  | .sr1 => "SR1"

/-- The letter of a register file. -/
def fileText : DagFile → String
  | .index => "I"
  | .modify => "M"
  | .length => "L"

/-- The name of a DAG register (R48). -/
def dagText (x : DagReg) : String :=
  fileText x.file ++ toString x.idx.val

/-- The name of a move's source. -/
def moveSrcText : MoveSrc → String
  | .dreg r => dregText r
  | .dag x => dagText x
  | .px => "PX"

/-- The name of a direct access's register. -/
def directText : DirectReg → String
  | .dreg r => dregText r
  | .dag x => dagText x

/-- The indirect operand `(Ii,Mj)` (R52). -/
def indirectText (i j : Fin 8) : String :=
  "(I" ++ toString i.val ++ ",M" ++ toString j.val ++ ")"

/-- A statement as R54 spells it, numbers in decimal (R49). The text of a jump or call leaves out its condition, whose
spelling is not in the source (R107). -/
def statementText : Instr → String
  | .ldiDag x imm => dagText x ++ "=" ++ toString imm.toNat ++ ";"
  | .movToDag x src => dagText x ++ "=" ++ moveSrcText src ++ ";"
  | .movFromDag r x => dregText r ++ "=" ++ dagText x ++ ";"
  | .ldDmDirect t a => directText t ++ "=DM(" ++ toString a.toNat ++ ");"
  | .stDmDirect a src => "DM(" ++ toString a.toNat ++ ")=" ++ directText src ++ ";"
  | .ldDmInd r i j => dregText r ++ "=DM" ++ indirectText i j ++ ";"
  | .stDmInd i j r => "DM" ++ indirectText i j ++ "=" ++ dregText r ++ ";"
  | .ldPmInd r i j => dregText r ++ "=PM" ++ indirectText i j ++ ";"
  | .stPmInd i j r => "PM" ++ indirectText i j ++ "=" ++ dregText r ++ ";"
  | .movToPx src => "PX=" ++ moveSrcText src ++ ";"
  | .movFromPx r => dregText r ++ "=PX;"
  | .enaBitRev => "ENA BIT_REV;"
  | .disBitRev => "DIS BIT_REV;"
  | .movToMstat r => "MSTAT=" ++ dregText r ++ ";"
  | .jumpInd i _ => "JUMP (I" ++ toString i.val ++ ");"
  | .callInd i _ => "CALL (I" ++ toString i.val ++ ");"

end Sys2Proof.Machine
end

