-- ==== Sys2Proof/Safety.lean ====
section
/-! DEFINITION. The terms in which claims are made: the invariant of the state, and what a statement's text says about
the registers it may change. -/

namespace Sys2Proof.Machine

/-- The invariant: both memories in canonical form, and the record of rule R43 strictly rising and naming only cells
whose word is listed. -/
abbrev State.Inv (s : State) : Prop :=
  s.dm.wf ∧ s.pm.wf ∧ s.pmWritten.Pairwise (· < ·) ∧ ∀ c ∈ s.pmWritten, (s.pmWord? c).isSome = true

/-- `I[k]` lies in its circular buffer, if it has one (42_modulo_addressing.md rule R83). -/
abbrev State.InOwnBuffer (s : State) (k : Fin 8) : Prop :=
  s.l k ≠ 0 → inBuffer (s.i k) (s.l k) = true

/-- The base address of the buffer of `I[k]` (R80). -/
def State.baseOf (s : State) (k : Fin 8) : Nat :=
  bufferBase (s.i k).toNat (s.l k).toNat

/-- The conditions under which the update of an access through `I[i]`, `M[j]` has a result: linear addressing, or I inside
its buffer and `|M| < L` (R71, R81, R82, R83). -/
abbrev State.UpdateDefined (s : State) (i j : Fin 8) : Prop :=
  s.l i = 0 ∨ (inBuffer (s.i i) (s.l i) = true ∧ modifyBelowLength (s.m j) (s.l i) = true)

/-! What a frame says is unchanged. -/

/-- Every DAG register is unchanged. -/
def State.SameDag (s t : State) : Prop :=
  t.iReg = s.iReg ∧ t.mReg = s.mReg ∧ t.lReg = s.lReg

/-- Every DAG register but `x` is unchanged. -/
def State.SameDagBut (s t : State) (x : DagReg) : Prop :=
  ∀ y, y ≠ x → t.dagReg y = s.dagReg y

/-- Every data register of both banks is unchanged. -/
def State.SameData (s t : State) : Prop :=
  t.primary = s.primary ∧ t.secondary = s.secondary

/-- Every data register of the selected bank but `r`, and every one of the other bank, is unchanged. -/
def State.SameDataBut (s t : State) (r : DReg) : Prop :=
  (∀ q, q ≠ r → t.x q = s.x q) ∧ (s.bankSel = true → t.primary = s.primary) ∧
    (s.bankSel = false → t.secondary = s.secondary)

/-- The overlay registers and the platform are unchanged. -/
def State.SameMap (s t : State) : Prop :=
  t.pmovlay = s.pmovlay ∧ t.dmovlay = s.dmovlay ∧ t.platform = s.platform

/-- Every byte of data memory is unchanged. -/
def State.SameDm (s t : State) : Prop :=
  ∀ k, t.dmByte k = s.dmByte k

/-- Every byte of program memory, and the record of written cells, is unchanged. -/
def State.SamePm (s t : State) : Prop :=
  (∀ k, t.pmByte k = s.pmByte k) ∧ t.pmWritten = s.pmWritten

end Sys2Proof.Machine

namespace Sys2Proof

/-- Whether a statement loads the DAG register `x` over the DMD bus (rules R62, R63, R65). -/
def Instr.loadsDag (x : DagReg) : Instr → Bool
  | .ldiDag y _ => y == x
  | .movToDag y _ => y == x
  | .ldDmDirect t _ => t == .dag x
  | .movFromDag _ _ => false
  | .stDmDirect _ _ => false
  | .ldDmInd _ _ _ => false
  | .stDmInd _ _ _ => false
  | .ldPmInd _ _ _ => false
  | .stPmInd _ _ _ => false
  | .movToPx _ => false
  | .movFromPx _ => false
  | .enaBitRev => false
  | .disBitRev => false
  | .movToMstat _ => false
  | .jumpInd _ _ => false
  | .callInd _ _ => false

/-- The index and modify registers of a statement's indirect operand, if it has one (R52). -/
def Instr.indirect? : Instr → Option (Fin 8 × Fin 8)
  | .ldDmInd _ i j => some (i, j)
  | .stDmInd i j _ => some (i, j)
  | .ldPmInd _ i j => some (i, j)
  | .stPmInd i j _ => some (i, j)
  | .ldiDag _ _ => none
  | .movToDag _ _ => none
  | .movFromDag _ _ => none
  | .ldDmDirect _ _ => none
  | .stDmDirect _ _ => none
  | .movToPx _ => none
  | .movFromPx _ => none
  | .enaBitRev => none
  | .disBitRev => none
  | .movToMstat _ => none
  | .jumpInd _ _ => none
  | .callInd _ _ => none

/-- Whether a statement selects `I[k]` for an indirect access. -/
def Instr.selects (k : Fin 8) (i : Instr) : Bool :=
  (i.indirect?.map (·.1)) == some k

end Sys2Proof
end

