-- ==== Sys2Proof/Certificates/Slice0/Obligations.lean ====
section
/-! DEFINITION. The statements for the provers: what the spec's numbered rules say the machine does. Where a clause
rests on a choice of the model, the docstring names the assumption log entry. In every statement `nextPc s.pc` is the
next statement in the program text, whatever its address is (log entries 3, 11). -/

open Sys2Proof
open Sys2Proof.Machine

/-! ## Reset and the invariant -/

/-- The model's own choice of reset values (log entries 2, 4, 5, 6, 7): the spec states none (R26). -/
def Obligations.ResetValuesAreTheLogs : Prop :=
  (∀ x, State.reset.dagReg x = 0) ∧ (∀ k : Fin 14, State.reset.primary[k] = 0 ∧ State.reset.secondary[k] = 0) ∧
    State.reset.px = 0 ∧ State.reset.mstat = 0 ∧ State.reset.bitRev = false ∧ State.reset.bankSel = false ∧
    State.reset.pc = 0 ∧ State.reset.pmovlay = ⟨0⟩ ∧ State.reset.dmovlay = ⟨0⟩ ∧ State.reset.dm = [] ∧
    State.reset.pm = [] ∧ State.reset.pmWritten = [] ∧
    State.reset.platform.routes = [] ∧ State.reset.platform.unbacked = [] ∧
    State.reset.platform.bitRevPos = 1 ∧ State.reset.platform.bankPos = some 0 ∧ ∀ r, State.reset.hasDreg r = true

/-- The invariant of the model holds after reset. -/
def Obligations.ResetMeetsInvariant : Prop :=
  State.reset.Inv

/-- Every step keeps both memories in canonical form, and the record of written cells rising and true (R34, R40, R43). -/
def Obligations.StepKeepsInvariant : Prop :=
  ∀ s t : State, s.Inv → step s = .next t → t.Inv

/-- Every step keeps an index register inside its own circular buffer, and the buffer at its base, as long as the
statement loads neither that I nor its L register (R81, R83; the base is decision D3's, log entry 16). -/
def Obligations.StepKeepsCircularBuffer : Prop :=
  ∀ (s t : State) (w : PmWord) (ins : Instr) (k : Fin 8),
    s.InOwnBuffer k → fetch s = .ok w → decode w = .ok ins →
    ins.loadsDag ⟨.index, k⟩ = false → ins.loadsDag ⟨.length, k⟩ = false →
    step s = .next t →
    t.l k = s.l k ∧ t.InOwnBuffer k ∧ (s.l k ≠ 0 → t.baseOf k = s.baseOf k)

/-! ## Decoding and the step -/

/-- The decoder reads every well-formed instruction back from its word, at every value of every operand. The patterns
are log entry 1's. -/
def Obligations.DecodeReadsEncodeBack : Prop :=
  ∀ i : Instr, i.wellFormed = true → decode (encode i) = .ok i

/-- A word that decodes is the word of a well-formed instruction, so no two words decode alike and no ill-formed operand
(R55) reaches a step. The patterns are log entry 1's. -/
def Obligations.DecodedWordIsItsEncoding : Prop :=
  ∀ (w : PmWord) (i : Instr), decode w = .ok i → i.wellFormed = true ∧ encode i = w

/-- Words of the programs of 95_test_vectors.md part C and of 30_encoding.md section 7 (log entry 1). -/
def Obligations.DecoderReadsTheSpecsWords : Prop :=
  decode 0x841003 = .ok (.ldDmDirect (.dag ⟨.index, 3⟩) 0x100) ∧
    decode 0x340005 = .ok (.ldiDag ⟨.modify, 1⟩ 0) ∧
    decode 0x60002E = .ok (.ldDmInd .mx0 3 2) ∧
    decode 0x941025 = .ok (.stDmDirect 0x102 (.dag ⟨.modify, 1⟩)) ∧
    decode 0x0D0106 = .ok (.movFromDag .ax0 ⟨.modify, 2⟩) ∧
    decode 0x780000 = .ok (.stDmInd 4 4 .ax0) ∧
    decode 0x500000 = .ok (.ldPmInd .ax0 4 4) ∧
    decode 0x580005 = .ok (.stPmInd 5 5 .ax0) ∧
    decode 0x0D0327 = .ok (.movFromPx .mx0) ∧
    decode 0x0D0C70 = .ok (.movToPx (.dreg .ax0)) ∧
    decode 0x0D0B27 = .ok (.movToDag ⟨.index, 6⟩ .px) ∧
    decode 0x0C00C0 = .ok .enaBitRev ∧ decode 0x0C0080 = .ok .disBitRev ∧
    decode 0x0D0C10 = .ok (.movToMstat .ax0) ∧
    decode 0x0B000F = .ok (.jumpInd 4 15) ∧ decode 0x0B00DF = .ok (.callInd 7 15)

/-- A step runs the instruction that the word at the pc decodes to, and adds nothing to it. On a platform whose `DREG`
lacks a data register it names, the word is no admitted statement (R54, decision D24). -/
def Obligations.StepRunsDecodedInstruction : Prop :=
  ∀ (s : State) (w : PmWord) (i : Instr),
    s.backed .pm s.pc = true → s.cell .pm s.pc ∉ s.pmWritten → s.pmWord? (s.cell .pm s.pc) = some w →
    decode w = .ok i →
    (s.admits i = true → step s = exec i s) ∧
    (s.admits i = false → step s = .refused (.notAdmitted .outsideDreg))

/-- Where a step stops before it executes, clause by clause: no storage behind the pc (R35, decision D26), a word that
the run has written (R43, decision D10), no program there (R22, log entry 12), no admitted statement (R54). -/
def Obligations.StepStopsBeforeExecuting : Prop :=
  ∀ s : State,
    (s.backed .pm s.pc = false → step s = .fault (.unbacked (s.place .pm s.pc))) ∧
    (s.backed .pm s.pc = true → s.cell .pm s.pc ∈ s.pmWritten → step s = .refused .fetchOfWrittenWord) ∧
    (s.backed .pm s.pc = true → s.cell .pm s.pc ∉ s.pmWritten → s.pmWord? (s.cell .pm s.pc) = none →
      step s = .refused .noStatement) ∧
    (∀ w why, s.backed .pm s.pc = true → s.cell .pm s.pc ∉ s.pmWritten →
      s.pmWord? (s.cell .pm s.pc) = some w → decode w = .error why → step s = .refused (.notAdmitted why))

/-! ## DAG register access -/

/-- The destination holds the pattern, nothing else changes, and the pattern reads as the corner cases of
40_dag_register_access.md section 2 say. A length decides which update the index of the same number takes next: the
linear one, whose sum is kept to 14 bits (decision D2, log entry 15), or the modulus logic (log entries 10, 16). -/
def Obligations.LdiDagLoadsTheImmediate : Prop :=
  ∀ (x : DagReg) (imm : Addr) (s : State), ∃ t, exec (.ldiDag x imm) s = .next t ∧
    t.dagReg x = imm ∧ t.pc = nextPc s.pc ∧
    s.SameDagBut t x ∧ s.SameData t ∧ t.px = s.px ∧ t.mstat = s.mstat ∧ s.SameMap t ∧ s.SameDm t ∧ s.SamePm t ∧
    (imm = 0x3FFF → sval14 (t.dagReg x) = -1) ∧ (imm = 0x2000 → sval14 (t.dagReg x) = -8192) ∧
    (x.file = .length → ∀ j, t.nextI x.idx j =
      if imm = 0 then .ok (trunc14 ((t.i x.idx).toNat + sval14 (t.m j))) else modNext (t.i x.idx) (t.m j) imm)

/-- R63: the lower 14 bits of the source's 16-bit value on the DMD bus, for each kind of source. -/
def Obligations.MovToDagLoadsLowerFourteenBits : Prop :=
  ∀ (x : DagReg) (src : MoveSrc) (s : State), ∃ t, exec (.movToDag x src) s = .next t ∧
    t.pc = nextPc s.pc ∧
    (∀ r, src = .dreg r → t.dagReg x = (s.x r).extractLsb' 0 14) ∧
    (src = .px → t.dagReg x = (s.px.setWidth 16).extractLsb' 0 14) ∧
    (∀ y, src = .dag y → y.file ≠ .modify → t.dagReg x = ((s.dagReg y).setWidth 16).extractLsb' 0 14) ∧
    (∀ y, src = .dag y → y.file = .modify → t.dagReg x = ((s.dagReg y).signExtend 16).extractLsb' 0 14)

/-- A move from one DAG register to another copies the 14 bits whatever the two files are, and a move to itself changes
no register (40_dag_register_access.md, MOV_TO_DAG, corner cases). -/
def Obligations.DagToDagMoveCopies : Prop :=
  ∀ (x y : DagReg) (s : State), ∃ t, exec (.movToDag x (.dag y)) s = .next t ∧
    t.dagReg x = s.dagReg y ∧ (x = y → ∀ z, t.dagReg z = s.dagReg z)

/-- R64: zeros above an I or L register, the sign above an M register; the DAG registers are unchanged. With PX for the
destination the lower 8 bits of the same value are kept. -/
def Obligations.MovFromDagExtendsToSixteenBits : Prop :=
  ∀ (r : DReg) (x : DagReg) (s : State),
    (∃ t, exec (.movFromDag r x) s = .next t ∧
      (x.file ≠ .modify → t.x r = (s.dagReg x).setWidth 16) ∧
      (x.file = .modify → t.x r = (s.dagReg x).signExtend 16) ∧
      s.SameDag t ∧ t.pc = nextPc s.pc) ∧
    (∃ t, exec (.movToPx (.dag x)) s = .next t ∧ t.px = (s.readDag x).extractLsb' 0 8 ∧
      s.SameDag t ∧ t.pc = nextPc s.pc)

/-- R59 and R60, in numbers: an I or L register reads as the same unsigned number, an M register as the same signed one
with bits 15 and 14 equal to bit 13. -/
def Obligations.DmdReadKeepsTheRegistersNumber : Prop :=
  ∀ (s : State) (x : DagReg),
    (x.file ≠ .modify → (s.readDag x).toNat = (s.dagReg x).toNat) ∧
    (x.file = .modify → (s.readDag x).toInt = sval14 (s.dagReg x) ∧
      (s.readDag x).getLsbD 15 = (s.dagReg x).getLsbD 13 ∧ (s.readDag x).getLsbD 14 = (s.dagReg x).getLsbD 13)

/-- R65: the word at the constant address, whole into a data register, its lower 14 bits into a DAG register. -/
def Obligations.LdDmDirectLoadsTheWord : Prop :=
  ∀ (a : Addr) (s : State), s.backed .dm a = true →
    (∀ r, ∃ t, exec (.ldDmDirect (.dreg r) a) s = .next t ∧ t.x r = s.dmWord (s.cell .dm a) ∧ s.SameDag t ∧
      t.pc = nextPc s.pc) ∧
    (∀ x, ∃ t, exec (.ldDmDirect (.dag x) a) s = .next t ∧
      t.dagReg x = (s.dmWord (s.cell .dm a)).extractLsb' 0 14 ∧ s.SameDagBut t x ∧ t.pc = nextPc s.pc)

/-- The direct store, which the spec admits by inference (decision D22). -/
def Obligations.StDmDirectStoresTheRegister : Prop :=
  ∀ (a : Addr) (s : State), s.backed .dm a = true →
    (∀ r, ∃ t, exec (.stDmDirect a (.dreg r)) s = .next t ∧ t.dmWord (s.cell .dm a) = s.x r ∧ t.pc = nextPc s.pc) ∧
    (∀ x, ∃ t, exec (.stDmDirect a (.dag x)) s = .next t ∧
      (x.file ≠ .modify → t.dmWord (s.cell .dm a) = (s.dagReg x).setWidth 16) ∧
      (x.file = .modify → t.dmWord (s.cell .dm a) = (s.dagReg x).signExtend 16) ∧ t.pc = nextPc s.pc)

/-! ## Address generation -/

/-- AGEN: the address put out, and the update that the length selects (41_indirect_addressing.md section 1): the linear one
(decision D2) or the source's formula (decision D3). Where it has no result see `UpdateWithoutResultIsRefused`. -/
def Obligations.AgenGivesAddressAndUpdate : Prop :=
  ∀ (s : State) (i j : Fin 8),
    (dagOf i = dagOf j → s.l i = 0 → agen s i j = .ok
      { out := if dagOf i = 1 ∧ s.bitRev = true then bitRev14 (s.i i) else s.i i
        next := trunc14 ((s.i i).toNat + sval14 (s.m j)) }) ∧
    (dagOf i = dagOf j → s.l i ≠ 0 → inBuffer (s.i i) (s.l i) = true → modifyBelowLength (s.m j) (s.l i) = true →
      agen s i j = .ok
        { out := if dagOf i = 1 ∧ s.bitRev = true then bitRev14 (s.i i) else s.i i
          next := trunc14 (((s.i i).toNat + sval14 (s.m j) - s.baseOf i) % ((s.l i).toNat : Int) + s.baseOf i) }) ∧
    (dagOf i ≠ dagOf j → agen s i j = .error (.refuse .illFormedOperand))

/-- Linear update (decision D2): the signed sum kept to 14 bits, which is the sum of the two patterns modulo 2^14. -/
def Obligations.LinearUpdateWrapsAtFourteenBits : Prop :=
  ∀ i m : Addr, ∃ v, postModify i m 0 = .ok v ∧
    (v.toNat : Int) = ((i.toNat : Int) + sval14 m) % 16384 ∧ v.toNat = (i.toNat + m.toNat) % 16384

/-- R78. -/
def Obligations.BufferExponentIsLeast : Prop :=
  (∀ len, 1 ≤ len → len ≤ 16383 →
    len ≤ 2 ^ bufferExponent len ∧ (∀ n, len ≤ 2 ^ n → bufferExponent len ≤ n) ∧
    (1 ≤ bufferExponent len → 2 ^ (bufferExponent len - 1) < len)) ∧
  bufferExponent 1 = 0 ∧ bufferExponent 7 = 3 ∧ bufferExponent 8 = 3 ∧ bufferExponent 8193 = 14

/-- The base the modulus logic uses (decision D3, D17): a multiple of `2^n(L)`, the only one whose buffer holds I; a
buffer never extends past the top; with a power of two for a length every address is inside. -/
def Obligations.BufferBaseIsTheOnlyPlacement : Prop :=
  ∀ i l : Addr, l ≠ 0 →
    bufferBase i.toNat l.toNat % 2 ^ bufferExponent l.toNat = 0 ∧
    (inBuffer i l = true → bufferBase i.toNat l.toNat ≤ i.toNat ∧ i.toNat < bufferBase i.toNat l.toNat + l.toNat) ∧
    (∀ b, b % 2 ^ bufferExponent l.toNat = 0 → b ≤ i.toNat → i.toNat < b + l.toNat →
      b = bufferBase i.toNat l.toNat ∧ inBuffer i l = true) ∧
    bufferBase i.toNat l.toNat + l.toNat ≤ 2 ^ 14 ∧
    (∀ k, l.toNat = 2 ^ k → inBuffer i l = true)

/-- The next-address formula, under the source's condition and inside the buffer (42_modulo_addressing.md section 3);
outside them there is no result (decision D4). -/
def Obligations.CircularUpdateFollowsTheFormula : Prop :=
  ∀ i m l : Addr, l ≠ 0 →
    (inBuffer i l = true → modifyBelowLength m l = true → ∃ v, postModify i m l = .ok v ∧
      (v.toNat : Int) =
        ((i.toNat : Int) + sval14 m - bufferBase i.toNat l.toNat) % (l.toNat : Int) + bufferBase i.toNat l.toNat) ∧
    (inBuffer i l = false ∨ modifyBelowLength m l = false → ∀ v, postModify i m l ≠ .ok v)

/-- The next address lies in the same buffer. -/
def Obligations.CircularUpdateStaysInTheBuffer : Prop :=
  ∀ i m l v : Addr, l ≠ 0 → postModify i m l = .ok v →
    bufferBase i.toNat l.toNat ≤ v.toNat ∧ v.toNat < bufferBase i.toNat l.toNat + l.toNat ∧
    bufferBase v.toNat l.toNat = bufferBase i.toNat l.toNat ∧ inBuffer v l = true

/-- The modified address is corrected by one buffer length at most. -/
def Obligations.CircularUpdateCorrectsOnce : Prop :=
  ∀ i m l v : Addr, l ≠ 0 → postModify i m l = .ok v →
    (v.toNat : Int) =
      if (i.toNat : Int) + sval14 m ≥ bufferBase i.toNat l.toNat + l.toNat then i.toNat + sval14 m - l.toNat
      else if (i.toNat : Int) + sval14 m < bufferBase i.toNat l.toNat then i.toNat + sval14 m + l.toNat
      else i.toNat + sval14 m

/-- Where the source gives the modulus logic no result, the access is refused at that step, each form of it and for each of
the two reasons (decision D4, log entry 10). -/
def Obligations.UpdateWithoutResultIsRefused : Prop :=
  ∀ (s : State) (i j : Fin 8) (r : DReg), s.l i ≠ 0 →
    (dagOf i = dagOf j →
      (inBuffer (s.i i) (s.l i) = false →
        exec (.ldDmInd r i j) s = .refused .indexOutsideBuffer ∧
        exec (.stDmInd i j r) s = .refused .indexOutsideBuffer) ∧
      (inBuffer (s.i i) (s.l i) = true → modifyBelowLength (s.m j) (s.l i) = false →
        exec (.ldDmInd r i j) s = .refused .modifyNotBelowLength ∧
        exec (.stDmInd i j r) s = .refused .modifyNotBelowLength)) ∧
    (dagOf i = 2 → dagOf j = 2 →
      (inBuffer (s.i i) (s.l i) = false →
        exec (.ldPmInd r i j) s = .refused .indexOutsideBuffer ∧
        exec (.stPmInd i j r) s = .refused .indexOutsideBuffer) ∧
      (inBuffer (s.i i) (s.l i) = true → modifyBelowLength (s.m j) (s.l i) = false →
        exec (.ldPmInd r i j) s = .refused .modifyNotBelowLength ∧
        exec (.stPmInd i j r) s = .refused .modifyNotBelowLength))

/-- With a modify value of zero the index register is unchanged, under either scheme. -/
def Obligations.ZeroModifyKeepsTheIndex : Prop :=
  ∀ i l : Addr, l = 0 ∨ inBuffer i l = true → postModify i 0 l = .ok i

/-- R89: the chart of address lines, the pivot, the values. -/
def Obligations.BitReversalReversesFourteenLines : Prop :=
  (∀ (a : Addr) (k : Nat), k < 14 → (bitRev14 a).getLsbD k = a.getLsbD (13 - k)) ∧
  (∀ a, bitRev14 (bitRev14 a) = a) ∧
  bitRev14 0x0000 = 0x0000 ∧ bitRev14 0x0001 = 0x2000 ∧ bitRev14 0x0002 = 0x1000 ∧ bitRev14 0x0040 = 0x0080 ∧
  bitRev14 0x3800 = 0x0007 ∧ bitRev14 0x1234 = 0x0B12 ∧ bitRev14 0x2AAA = 0x1555 ∧ bitRev14 0x3FFF = 0x3FFF

/-- The mode reverses the address of every DAG1 access, read or write, and of no other, and never the stored-back
index: the four indirect forms reach the cells this says (43_bit_reverse.md sections 2). -/
def Obligations.ReversalIsDag1sAddressOnly : Prop :=
  ∀ (s t : State) (i j : Fin 8) (r : DReg),
    (exec (.ldDmInd r i j) s = .next t →
      t.x r = s.dmWord (s.cell .dm (if i.val < 4 ∧ s.bitRev = true then bitRev14 (s.i i) else s.i i)) ∧
      postModify (s.i i) (s.m j) (s.l i) = .ok (t.i i)) ∧
    (exec (.stDmInd i j r) s = .next t →
      t.dmWord (s.cell .dm (if i.val < 4 ∧ s.bitRev = true then bitRev14 (s.i i) else s.i i)) = s.x r ∧
      postModify (s.i i) (s.m j) (s.l i) = .ok (t.i i)) ∧
    (exec (.ldPmInd r i j) s = .next t →
      t.x r = (s.pmWord (s.cell .pm (s.i i))).extractLsb' 8 16 ∧ postModify (s.i i) (s.m j) (s.l i) = .ok (t.i i)) ∧
    (exec (.stPmInd i j r) s = .next t →
      t.pmWord (s.cell .pm (s.i i)) = s.x r ++ s.px ∧ postModify (s.i i) (s.m j) (s.l i) = .ok (t.i i))

/-- The recipe for reversing N bits (43_bit_reverse.md section 4): stepping a linear I by `2^(14-N)` never changes its
low `14-N` bits, so the upper `14-N` bits of the output stay fixed, and after `2^N` accesses I is back. -/
def Obligations.NBitReversalKeepsUpperOutputAndReturns : Prop :=
  (∀ i m : Addr, postModify i m 0 = .ok (linearNext i m)) ∧
  ∀ (n : Nat) (i : Addr), 1 ≤ n → n ≤ 14 →
    (∀ (k b : Nat), b < 14 - n →
      (bitRev14 ((fun a => linearNext a (trunc14 (2 ^ (14 - n))))^[k] i)).getLsbD (13 - b) =
        (bitRev14 i).getLsbD (13 - b)) ∧
    (fun a => linearNext a (trunc14 (2 ^ (14 - n))))^[2 ^ n] i = i

/-- R37: address generation reads neither overlay register, no DAG register depends on them, and an access goes to the
region selected at the time of the access. -/
def Obligations.OverlayRegistersDoNotReachTheDags : Prop :=
  ∀ (s : State) (p d : OvlSel) (i j : Fin 8),
    agen { s with pmovlay := p, dmovlay := d } i j = agen s i j ∧
    agenPm { s with pmovlay := p, dmovlay := d } i j = agenPm s i j ∧
    (∀ x, State.dagReg { s with pmovlay := p, dmovlay := d } x = s.dagReg x) ∧
    ∀ a, State.cell { s with pmovlay := p, dmovlay := d } .dm a = cellOf s.platform .dm d a ∧
      State.cell { s with pmovlay := p, dmovlay := d } .pm a = cellOf s.platform .pm p a

/-- The two DAGs share no register of any file, so each computes what it would compute alone, in either order
(41_indirect_addressing.md section 3). -/
def Obligations.TheTwoDagsAreIndependent : Prop :=
  ∀ (s : State) (f g : DagFile) (k1 k2 i1 j1 i2 j2 : Fin 8) (v1 v2 : Addr),
    dagOf k1 = 1 → dagOf i1 = 1 → dagOf k2 = 2 → dagOf i2 = 2 →
    agen (s.setDagReg ⟨f, k1⟩ v1) i2 j2 = agen s i2 j2 ∧ agen (s.setDagReg ⟨g, k2⟩ v2) i1 j1 = agen s i1 j1 ∧
    (s.setDagReg ⟨f, k1⟩ v1).setDagReg ⟨g, k2⟩ v2 = (s.setDagReg ⟨g, k2⟩ v2).setDagReg ⟨f, k1⟩ v1

/-! ## Indirect access -/

/-- The indirect data memory load, under the conditions that give the update a result. -/
def Obligations.LdDmIndLoadsAndPostModifies : Prop :=
  ∀ (s : State) (i j : Fin 8) (r : DReg), dagOf i = dagOf j → s.UpdateDefined i j →
    s.backed .dm (s.outAddr i) = true →
    ∃ t, exec (.ldDmInd r i j) s = .next t ∧ t.x r = s.dmWord (s.cell .dm (s.outAddr i)) ∧
      s.nextI i j = .ok (t.i i) ∧ s.SameDagBut t ⟨.index, i⟩ ∧ t.pc = nextPc s.pc

/-- The indirect data memory store, which the spec admits by inference (decision D22), under the same conditions. -/
def Obligations.StDmIndStoresAndPostModifies : Prop :=
  ∀ (s : State) (i j : Fin 8) (r : DReg), dagOf i = dagOf j → s.UpdateDefined i j →
    s.backed .dm (s.outAddr i) = true →
    ∃ t, exec (.stDmInd i j r) s = .next t ∧ t.dmWord (s.cell .dm (s.outAddr i)) = s.x r ∧
      s.nextI i j = .ok (t.i i) ∧ s.SameDagBut t ⟨.index, i⟩ ∧ t.pc = nextPc s.pc

/-- Every completed indirect access makes the update, reads and writes alike, DM and PM alike, and only where the update
has a result; a modify value of zero keeps I under either scheme. -/
def Obligations.EveryIndirectAccessPostModifies : Prop :=
  ∀ (ins : Instr) (i j : Fin 8) (s t : State), ins.indirect? = some (i, j) → exec ins s = .next t →
    dagOf i = dagOf j ∧ s.UpdateDefined i j ∧ s.nextI i j = .ok (t.i i) ∧ (s.m j = 0 → t.i i = s.i i)

/-! ## Bus exchange -/

/-- The program memory load: bits 23:8 to the register, bits 7:0 to PX (its access rests on R36 as log entry 7 has it). -/
def Obligations.LdPmIndSplitsTheWord : Prop :=
  ∀ (s : State) (i j : Fin 8) (r : DReg), dagOf i = 2 → dagOf j = 2 → s.UpdateDefined i j →
    s.backed .pm (s.i i) = true →
    ∃ t, exec (.ldPmInd r i j) s = .next t ∧
      t.x r = (s.pmWord (s.cell .pm (s.i i))).extractLsb' 8 16 ∧
      t.px = (s.pmWord (s.cell .pm (s.i i))).extractLsb' 0 8 ∧
      s.nextI i j = .ok (t.i i) ∧ s.SameDagBut t ⟨.index, i⟩ ∧ t.pc = nextPc s.pc

/-- The program memory store: the register in bits 23:8, PX in bits 7:0, all 24 bits overwritten, PX unchanged. -/
def Obligations.StPmIndJoinsTheWord : Prop :=
  ∀ (s : State) (i j : Fin 8) (r : DReg), dagOf i = 2 → dagOf j = 2 → s.UpdateDefined i j →
    s.backed .pm (s.i i) = true →
    ∃ t, exec (.stPmInd i j r) s = .next t ∧ t.pmWord (s.cell .pm (s.i i)) = s.x r ++ s.px ∧ t.px = s.px ∧
      s.nextI i j = .ok (t.i i) ∧ s.SameDagBut t ⟨.index, i⟩ ∧ t.pc = nextPc s.pc

/-- R101, for every source readable on the DMD bus; the source register is unchanged. -/
def Obligations.MovToPxTakesTheLowerEightBits : Prop :=
  ∀ (src : MoveSrc) (s : State), ∃ t, exec (.movToPx src) s = .next t ∧ t.pc = nextPc s.pc ∧
    (∀ r, src = .dreg r → t.px = (s.x r).extractLsb' 0 8 ∧ t.x r = s.x r) ∧
    (∀ x, src = .dag x → t.px = (s.readDag x).extractLsb' 0 8 ∧ t.dagReg x = s.dagReg x) ∧
    (src = .px → t.px = s.px)

/-- R102, with the corner case of a DAG register as the destination; PX is unchanged. -/
def Obligations.MovFromPxReadsZerosAbove : Prop :=
  (∀ (r : DReg) (s : State), ∃ t, exec (.movFromPx r) s = .next t ∧ (t.x r).toNat = s.px.toNat ∧ t.px = s.px ∧
    t.pc = nextPc s.pc) ∧
  (∀ (x : DagReg) (s : State), ∃ t, exec (.movToDag x .px) s = .next t ∧ (t.dagReg x).toNat = s.px.toNat ∧ t.px = s.px)

/-- A program memory word loaded and stored again is copied with all its 24 bits (44_bus_exchange.md section 4). -/
def Obligations.LoadThenStoreCopiesAllBits : Prop :=
  ∀ (s t u : State) (i j i2 j2 : Fin 8) (r : DReg),
    exec (.ldPmInd r i j) s = .next t → exec (.stPmInd i2 j2 r) t = .next u →
    u.pmWord (t.cell .pm (t.i i2)) = s.pmWord (s.cell .pm (s.i i))

/-! ## Mode -/

/-- The bit is set and no DAG register changes (43_bit_reverse.md section 3); the next statement reverses every DAG1
address (decision D13). -/
def Obligations.EnaBitRevSetsTheMode : Prop :=
  ∀ s : State, ∃ t, exec .enaBitRev s = .next t ∧ t.bitRev = true ∧ s.SameDag t ∧ t.pc = nextPc s.pc ∧
    (s.bitRev = true → t.mstat = s.mstat) ∧ ∀ i, dagOf i = 1 → t.outAddr i = bitRev14 (t.i i)

/-- The counterpart, admitted by decision D19: the bit is reset. -/
def Obligations.DisBitRevResetsTheMode : Prop :=
  ∀ s : State, ∃ t, exec .disBitRev s = .next t ∧ t.bitRev = false ∧ s.SameDag t ∧ t.pc = nextPc s.pc ∧
    (s.bitRev = false → t.mstat = s.mstat) ∧ ∀ i, t.outAddr i = t.i i

/-- A write of MSTAT takes the register's lower 7 bits, the bit-reverse bit at `BIT_REV_POS` among them, whatever that
position is (log entries 4, 5). -/
def Obligations.MovToMstatWritesTheMode : Prop :=
  ∀ (r : DReg) (s : State), ∃ t, exec (.movToMstat r) s = .next t ∧
    t.bitRev = (s.x r).getLsbD s.platform.bitRevPos.val ∧
    (∀ k, k < 7 → t.mstat.getLsbD k = (s.x r).getLsbD k) ∧ t.pc = nextPc s.pc

/-! ## Control transfer -/

/-- R107: both statements are refused by name, whatever register and condition they name. -/
def Obligations.RegisterIndirectTransfersAreRefused : Prop :=
  ∀ (i : Fin 8) (c : BitVec 4) (s : State),
    exec (.jumpInd i c) s = .refused .registerIndirectJump ∧ exec (.callInd i c) s = .refused .registerIndirectCall

/-- Every completed statement goes to the next one (decision D6; its address is log entries 3, 11). -/
def Obligations.CompletedStatementGoesToTheNext : Prop :=
  ∀ (ins : Instr) (s t : State), exec ins s = .next t →
    t.pc = nextPc s.pc ∧ (s.pc ≠ 0x3FFF → t.pc = s.pc + 1)

/-! ## Operands that stop -/

/-- An access to a place outside `BACKED` has no step (decision D26). -/
def Obligations.UnbackedAccessHasNoStep : Prop :=
  ∀ (s : State) (i j : Fin 8) (r : DReg) (a : Addr) (d : DirectReg),
    (s.backed .dm a = false → exec (.ldDmDirect d a) s = .fault (.unbacked ⟨.dm, s.dmovlay, a⟩) ∧
      exec (.stDmDirect a d) s = .fault (.unbacked ⟨.dm, s.dmovlay, a⟩)) ∧
    (dagOf i = dagOf j → s.UpdateDefined i j → s.backed .dm (s.outAddr i) = false →
      exec (.ldDmInd r i j) s = .fault (.unbacked ⟨.dm, s.dmovlay, s.outAddr i⟩) ∧
      exec (.stDmInd i j r) s = .fault (.unbacked ⟨.dm, s.dmovlay, s.outAddr i⟩)) ∧
    (dagOf i = 2 → dagOf j = 2 → s.UpdateDefined i j → s.backed .pm (s.i i) = false →
      exec (.ldPmInd r i j) s = .fault (.unbacked ⟨.pm, s.pmovlay, s.i i⟩) ∧
      exec (.stPmInd i j r) s = .fault (.unbacked ⟨.pm, s.pmovlay, s.i i⟩))

/-- The indirect operands that spell no statement are rejected by the well-formedness check and given no meaning. -/
def Obligations.IllFormedOperandsAreRejected : Prop :=
  ∀ (s : State) (i j : Fin 8) (r : DReg),
    (dagOf i ≠ dagOf j → (Instr.ldDmInd r i j).wellFormed = false ∧ (Instr.stDmInd i j r).wellFormed = false ∧
      exec (.ldDmInd r i j) s = .refused .illFormedOperand ∧ exec (.stDmInd i j r) s = .refused .illFormedOperand) ∧
    (dagOf i ≠ 2 ∨ dagOf j ≠ 2 → (Instr.ldPmInd r i j).wellFormed = false ∧ (Instr.stPmInd i j r).wellFormed = false ∧
      exec (.ldPmInd r i j) s = .refused .illFormedOperand ∧ exec (.stPmInd i j r) s = .refused .illFormedOperand)

/-- The immediate of a DAG register load (decision D15): -8192..16383 and nothing else, as a pattern modulo 2^14. -/
def Obligations.ImmediateRangeIsFourteenBits : Prop :=
  ∀ z : Int,
    (∀ p, immOfInt z = some p → ((p.toNat : Int) - z) % 16384 = 0) ∧
    ((immOfInt z).isSome = true ↔ -8192 ≤ z ∧ z ≤ 16383) ∧
    immOfInt (-1) = immOfInt 0x3FFF

/-! ## Memory -/

/-- A data memory load returns the value of the last store to the same cell (decision D9: program order). -/
def Obligations.LoadReturnsTheLastStore : Prop :=
  ∀ (s t u : State) (a b : Addr) (q r : DReg),
    exec (.stDmDirect a (.dreg q)) s = .next t → exec (.ldDmDirect (.dreg r) b) t = .next u →
    (s.cell .dm a = s.cell .dm b → u.x r = s.x q) ∧
    (s.cell .dm a ≠ s.cell .dm b → u.x r = s.dmWord (s.cell .dm b))

/-- Overlays in both spaces (R36, R38, log entry 7): what is stored under one selection is read under another exactly
where the platform gives the two the same cell; outside every overlay region the selection makes no difference; and where
the platform lists a route, that is the cell. The second access is to the same address, in the state the first left but
for the selection in that space's overlay register. -/
def Obligations.OverlaySelectionChoosesTheCell : Prop :=
  ∀ (s t u : State) (sel : OvlSel) (a : Addr) (i j i2 j2 : Fin 8) (q r : DReg),
    (exec (.stDmDirect a (.dreg q)) s = .next t →
      exec (.ldDmDirect (.dreg r) a) { t with dmovlay := sel } = .next u →
      (cellOf s.platform .dm sel a = s.cell .dm a → u.x r = s.x q) ∧
      (cellOf s.platform .dm sel a ≠ s.cell .dm a → u.x r = s.dmWord (cellOf s.platform .dm sel a)) ∧
      (inOverlay s.platform .dm a = false → u.x r = s.x q)) ∧
    (exec (.stPmInd i j q) s = .next t → t.i i2 = s.i i →
      exec (.ldPmInd r i2 j2) { t with pmovlay := sel } = .next u →
      (cellOf s.platform .pm sel (s.i i) = s.cell .pm (s.i i) → u.x r = s.x q ∧ u.px = s.px) ∧
      (cellOf s.platform .pm sel (s.i i) ≠ s.cell .pm (s.i i) →
        u.x r ++ u.px = s.pmWord (cellOf s.platform .pm sel (s.i i))) ∧
      (inOverlay s.platform .pm (s.i i) = false → u.x r = s.x q ∧ u.px = s.px)) ∧
    ∀ sp route, s.platform.routes.find? (fun k => k.place == ⟨sp, sel, a⟩) = some route →
      cellOf s.platform sp sel a = route.cell

/-! ## Frames: what each instruction leaves unchanged when it completes -/

/-- `LDI_DAG` and `MOV_TO_DAG` change their destination and the pc. -/
def Obligations.FrameOfDagRegisterLoads : Prop :=
  ∀ (x : DagReg) (imm : Addr) (src : MoveSrc) (s t : State),
    exec (.ldiDag x imm) s = .next t ∨ exec (.movToDag x src) s = .next t →
    s.SameDagBut t x ∧ s.SameData t ∧ t.px = s.px ∧ t.mstat = s.mstat ∧ s.SameMap t ∧ s.SameDm t ∧ s.SamePm t

/-- `MOV_FROM_DAG` and `MOV_FROM_PX` change their data register and the pc. -/
def Obligations.FrameOfDataRegisterMoves : Prop :=
  ∀ (r : DReg) (x : DagReg) (s t : State),
    exec (.movFromDag r x) s = .next t ∨ exec (.movFromPx r) s = .next t →
    s.SameDag t ∧ s.SameDataBut t r ∧ t.px = s.px ∧ t.mstat = s.mstat ∧ s.SameMap t ∧ s.SameDm t ∧ s.SamePm t

/-- The data memory loads change their register, the index register of the indirect form, and the pc. -/
def Obligations.FrameOfDataMemoryLoads : Prop :=
  ∀ (a : Addr) (i j : Fin 8) (r : DReg) (s t : State),
    (exec (.ldDmDirect (.dreg r) a) s = .next t →
      s.SameDag t ∧ s.SameDataBut t r ∧ t.px = s.px ∧ t.mstat = s.mstat ∧ s.SameMap t ∧ s.SameDm t ∧ s.SamePm t) ∧
    (∀ x, exec (.ldDmDirect (.dag x) a) s = .next t →
      s.SameDagBut t x ∧ s.SameData t ∧ t.px = s.px ∧ t.mstat = s.mstat ∧ s.SameMap t ∧ s.SameDm t ∧ s.SamePm t) ∧
    (exec (.ldDmInd r i j) s = .next t →
      s.SameDagBut t ⟨.index, i⟩ ∧ s.SameDataBut t r ∧ t.px = s.px ∧ t.mstat = s.mstat ∧ s.SameMap t ∧ s.SameDm t ∧
      s.SamePm t)

/-- The data memory stores change the two bytes of their word, the index register of the indirect form, and the pc. -/
def Obligations.FrameOfDataMemoryStores : Prop :=
  ∀ (a : Addr) (d : DirectReg) (i j : Fin 8) (r : DReg) (s t : State),
    (exec (.stDmDirect a d) s = .next t →
      s.SameDag t ∧ s.SameData t ∧ t.px = s.px ∧ t.mstat = s.mstat ∧ s.SameMap t ∧ s.SamePm t ∧
      ∀ c, s.cell .dm a = c → ∀ k, k ≠ 2 * c → k ≠ 2 * c + 1 → t.dmByte k = s.dmByte k) ∧
    (exec (.stDmInd i j r) s = .next t →
      s.SameDagBut t ⟨.index, i⟩ ∧ s.SameData t ∧ t.px = s.px ∧ t.mstat = s.mstat ∧ s.SameMap t ∧ s.SamePm t ∧
      ∀ c, s.cell .dm (s.outAddr i) = c → ∀ k, k ≠ 2 * c → k ≠ 2 * c + 1 → t.dmByte k = s.dmByte k)

/-- `LD_PM_IND` changes its data register, PX, its index register and the pc. -/
def Obligations.FrameOfProgramMemoryLoad : Prop :=
  ∀ (r : DReg) (i j : Fin 8) (s t : State), exec (.ldPmInd r i j) s = .next t →
    s.SameDagBut t ⟨.index, i⟩ ∧ s.SameDataBut t r ∧ t.mstat = s.mstat ∧ s.SameMap t ∧ s.SameDm t ∧ s.SamePm t

/-- `ST_PM_IND` changes its index register, the three bytes of its word, the record of written cells and the pc. -/
def Obligations.FrameOfProgramMemoryStore : Prop :=
  ∀ (r : DReg) (i j : Fin 8) (s t : State), exec (.stPmInd i j r) s = .next t →
    s.SameDagBut t ⟨.index, i⟩ ∧ s.SameData t ∧ t.px = s.px ∧ t.mstat = s.mstat ∧ s.SameMap t ∧ s.SameDm t ∧
    ∀ c, s.cell .pm (s.i i) = c →
      (∀ k, k ≠ 3 * c → k ≠ 3 * c + 1 → k ≠ 3 * c + 2 → t.pmByte k = s.pmByte k) ∧
      ∀ n, n ∈ t.pmWritten ↔ n = c ∨ n ∈ s.pmWritten

/-- `MOV_TO_PX` changes PX and the pc. -/
def Obligations.FrameOfMoveToPx : Prop :=
  ∀ (src : MoveSrc) (s t : State), exec (.movToPx src) s = .next t →
    s.SameDag t ∧ s.SameData t ∧ t.mstat = s.mstat ∧ s.SameMap t ∧ s.SameDm t ∧ s.SamePm t

/-- The mode statements change MSTAT and the pc; `ENA BIT_REV;` and `DIS BIT_REV;` change no other bit of MSTAT,
and so no data register that a statement names. -/
def Obligations.FrameOfModeStatements : Prop :=
  ∀ (r : DReg) (s t : State),
    (exec .enaBitRev s = .next t ∨ exec .disBitRev s = .next t ∨ exec (.movToMstat r) s = .next t →
      s.SameDag t ∧ s.SameData t ∧ t.px = s.px ∧ s.SameMap t ∧ s.SameDm t ∧ s.SamePm t) ∧
    (exec .enaBitRev s = .next t ∨ exec .disBitRev s = .next t →
      (∀ k, k ≠ s.platform.bitRevPos.val → t.mstat.getLsbD k = s.mstat.getLsbD k) ∧ ∀ q, t.x q = s.x q)

/-! ## Rules of the whole machine -/

/-- M and L registers are written only by a load over the DMD bus, and an I register only by that or by an access that
selects it (10_state.md section 1). -/
def Obligations.DagRegistersChangeOnlyAsSaid : Prop :=
  ∀ (ins : Instr) (s t : State) (k : Fin 8), exec ins s = .next t →
    (ins.loadsDag ⟨.modify, k⟩ = false → t.m k = s.m k) ∧
    (ins.loadsDag ⟨.length, k⟩ = false → t.l k = s.l k) ∧
    (ins.loadsDag ⟨.index, k⟩ = false → ins.selects k = false → t.i k = s.i k)

/-- PX is written only by a program memory data read and by a move to it. -/
def Obligations.PxChangesOnlyAsSaid : Prop :=
  ∀ (ins : Instr) (s t : State), exec ins s = .next t →
    (∀ r i j, ins ≠ .ldPmInd r i j) → (∀ src, ins ≠ .movToPx src) → t.px = s.px

/-- The mode changes only by its three statements, and no statement writes an overlay register or a parameter of
the platform. -/
def Obligations.ModeAndOverlaysChangeOnlyAsSaid : Prop :=
  ∀ (ins : Instr) (s t : State), exec ins s = .next t →
    s.SameMap t ∧ (ins ≠ .enaBitRev → ins ≠ .disBitRev → (∀ r, ins ≠ .movToMstat r) → t.mstat = s.mstat)
end

