-- ==== Sys2Proof/Laws/State.lean ====
section
/-! SUPPORT. One lemma for each field under each update of the state, and the reads of registers that follow. -/

namespace Sys2Proof.Machine

/-! `setI` -/

@[simp] theorem State.setI_iReg (s : State) (k : Fin 8) (v : Addr) : (s.setI k v).iReg = s.iReg.set k v := rfl
@[simp] theorem State.setI_mReg (s : State) (k : Fin 8) (v : Addr) : (s.setI k v).mReg = s.mReg := rfl
@[simp] theorem State.setI_lReg (s : State) (k : Fin 8) (v : Addr) : (s.setI k v).lReg = s.lReg := rfl
@[simp] theorem State.setI_px (s : State) (k : Fin 8) (v : Addr) : (s.setI k v).px = s.px := rfl
@[simp] theorem State.setI_mstat (s : State) (k : Fin 8) (v : Addr) : (s.setI k v).mstat = s.mstat := rfl
@[simp] theorem State.setI_pmovlay (s : State) (k : Fin 8) (v : Addr) : (s.setI k v).pmovlay = s.pmovlay := rfl
@[simp] theorem State.setI_dmovlay (s : State) (k : Fin 8) (v : Addr) : (s.setI k v).dmovlay = s.dmovlay := rfl
@[simp] theorem State.setI_primary (s : State) (k : Fin 8) (v : Addr) : (s.setI k v).primary = s.primary := rfl
@[simp] theorem State.setI_secondary (s : State) (k : Fin 8) (v : Addr) : (s.setI k v).secondary = s.secondary := rfl
@[simp] theorem State.setI_pc (s : State) (k : Fin 8) (v : Addr) : (s.setI k v).pc = s.pc := rfl
@[simp] theorem State.setI_dm (s : State) (k : Fin 8) (v : Addr) : (s.setI k v).dm = s.dm := rfl
@[simp] theorem State.setI_pm (s : State) (k : Fin 8) (v : Addr) : (s.setI k v).pm = s.pm := rfl
@[simp] theorem State.setI_pmWritten (s : State) (k : Fin 8) (v : Addr) : (s.setI k v).pmWritten = s.pmWritten := rfl
@[simp] theorem State.setI_platform (s : State) (k : Fin 8) (v : Addr) : (s.setI k v).platform = s.platform := rfl

/-! `setM` -/

@[simp] theorem State.setM_iReg (s : State) (k : Fin 8) (v : Addr) : (s.setM k v).iReg = s.iReg := rfl
@[simp] theorem State.setM_mReg (s : State) (k : Fin 8) (v : Addr) : (s.setM k v).mReg = s.mReg.set k v := rfl
@[simp] theorem State.setM_lReg (s : State) (k : Fin 8) (v : Addr) : (s.setM k v).lReg = s.lReg := rfl
@[simp] theorem State.setM_px (s : State) (k : Fin 8) (v : Addr) : (s.setM k v).px = s.px := rfl
@[simp] theorem State.setM_mstat (s : State) (k : Fin 8) (v : Addr) : (s.setM k v).mstat = s.mstat := rfl
@[simp] theorem State.setM_pmovlay (s : State) (k : Fin 8) (v : Addr) : (s.setM k v).pmovlay = s.pmovlay := rfl
@[simp] theorem State.setM_dmovlay (s : State) (k : Fin 8) (v : Addr) : (s.setM k v).dmovlay = s.dmovlay := rfl
@[simp] theorem State.setM_primary (s : State) (k : Fin 8) (v : Addr) : (s.setM k v).primary = s.primary := rfl
@[simp] theorem State.setM_secondary (s : State) (k : Fin 8) (v : Addr) : (s.setM k v).secondary = s.secondary := rfl
@[simp] theorem State.setM_pc (s : State) (k : Fin 8) (v : Addr) : (s.setM k v).pc = s.pc := rfl
@[simp] theorem State.setM_dm (s : State) (k : Fin 8) (v : Addr) : (s.setM k v).dm = s.dm := rfl
@[simp] theorem State.setM_pm (s : State) (k : Fin 8) (v : Addr) : (s.setM k v).pm = s.pm := rfl
@[simp] theorem State.setM_pmWritten (s : State) (k : Fin 8) (v : Addr) : (s.setM k v).pmWritten = s.pmWritten := rfl
@[simp] theorem State.setM_platform (s : State) (k : Fin 8) (v : Addr) : (s.setM k v).platform = s.platform := rfl

/-! `setL` -/

@[simp] theorem State.setL_iReg (s : State) (k : Fin 8) (v : Addr) : (s.setL k v).iReg = s.iReg := rfl
@[simp] theorem State.setL_mReg (s : State) (k : Fin 8) (v : Addr) : (s.setL k v).mReg = s.mReg := rfl
@[simp] theorem State.setL_lReg (s : State) (k : Fin 8) (v : Addr) : (s.setL k v).lReg = s.lReg.set k v := rfl
@[simp] theorem State.setL_px (s : State) (k : Fin 8) (v : Addr) : (s.setL k v).px = s.px := rfl
@[simp] theorem State.setL_mstat (s : State) (k : Fin 8) (v : Addr) : (s.setL k v).mstat = s.mstat := rfl
@[simp] theorem State.setL_pmovlay (s : State) (k : Fin 8) (v : Addr) : (s.setL k v).pmovlay = s.pmovlay := rfl
@[simp] theorem State.setL_dmovlay (s : State) (k : Fin 8) (v : Addr) : (s.setL k v).dmovlay = s.dmovlay := rfl
@[simp] theorem State.setL_primary (s : State) (k : Fin 8) (v : Addr) : (s.setL k v).primary = s.primary := rfl
@[simp] theorem State.setL_secondary (s : State) (k : Fin 8) (v : Addr) : (s.setL k v).secondary = s.secondary := rfl
@[simp] theorem State.setL_pc (s : State) (k : Fin 8) (v : Addr) : (s.setL k v).pc = s.pc := rfl
@[simp] theorem State.setL_dm (s : State) (k : Fin 8) (v : Addr) : (s.setL k v).dm = s.dm := rfl
@[simp] theorem State.setL_pm (s : State) (k : Fin 8) (v : Addr) : (s.setL k v).pm = s.pm := rfl
@[simp] theorem State.setL_pmWritten (s : State) (k : Fin 8) (v : Addr) : (s.setL k v).pmWritten = s.pmWritten := rfl
@[simp] theorem State.setL_platform (s : State) (k : Fin 8) (v : Addr) : (s.setL k v).platform = s.platform := rfl

/-! `setPx` -/

@[simp] theorem State.setPx_iReg (s : State) (v : Byte) : (s.setPx v).iReg = s.iReg := rfl
@[simp] theorem State.setPx_mReg (s : State) (v : Byte) : (s.setPx v).mReg = s.mReg := rfl
@[simp] theorem State.setPx_lReg (s : State) (v : Byte) : (s.setPx v).lReg = s.lReg := rfl
@[simp] theorem State.setPx_px (s : State) (v : Byte) : (s.setPx v).px = v := rfl
@[simp] theorem State.setPx_mstat (s : State) (v : Byte) : (s.setPx v).mstat = s.mstat := rfl
@[simp] theorem State.setPx_pmovlay (s : State) (v : Byte) : (s.setPx v).pmovlay = s.pmovlay := rfl
@[simp] theorem State.setPx_dmovlay (s : State) (v : Byte) : (s.setPx v).dmovlay = s.dmovlay := rfl
@[simp] theorem State.setPx_primary (s : State) (v : Byte) : (s.setPx v).primary = s.primary := rfl
@[simp] theorem State.setPx_secondary (s : State) (v : Byte) : (s.setPx v).secondary = s.secondary := rfl
@[simp] theorem State.setPx_pc (s : State) (v : Byte) : (s.setPx v).pc = s.pc := rfl
@[simp] theorem State.setPx_dm (s : State) (v : Byte) : (s.setPx v).dm = s.dm := rfl
@[simp] theorem State.setPx_pm (s : State) (v : Byte) : (s.setPx v).pm = s.pm := rfl
@[simp] theorem State.setPx_pmWritten (s : State) (v : Byte) : (s.setPx v).pmWritten = s.pmWritten := rfl
@[simp] theorem State.setPx_platform (s : State) (v : Byte) : (s.setPx v).platform = s.platform := rfl

/-! `setMstat` -/

@[simp] theorem State.setMstat_iReg (s : State) (v : BitVec 7) : (s.setMstat v).iReg = s.iReg := rfl
@[simp] theorem State.setMstat_mReg (s : State) (v : BitVec 7) : (s.setMstat v).mReg = s.mReg := rfl
@[simp] theorem State.setMstat_lReg (s : State) (v : BitVec 7) : (s.setMstat v).lReg = s.lReg := rfl
@[simp] theorem State.setMstat_px (s : State) (v : BitVec 7) : (s.setMstat v).px = s.px := rfl
@[simp] theorem State.setMstat_mstat (s : State) (v : BitVec 7) : (s.setMstat v).mstat = v := rfl
@[simp] theorem State.setMstat_pmovlay (s : State) (v : BitVec 7) : (s.setMstat v).pmovlay = s.pmovlay := rfl
@[simp] theorem State.setMstat_dmovlay (s : State) (v : BitVec 7) : (s.setMstat v).dmovlay = s.dmovlay := rfl
@[simp] theorem State.setMstat_primary (s : State) (v : BitVec 7) : (s.setMstat v).primary = s.primary := rfl
@[simp] theorem State.setMstat_secondary (s : State) (v : BitVec 7) : (s.setMstat v).secondary = s.secondary := rfl
@[simp] theorem State.setMstat_pc (s : State) (v : BitVec 7) : (s.setMstat v).pc = s.pc := rfl
@[simp] theorem State.setMstat_dm (s : State) (v : BitVec 7) : (s.setMstat v).dm = s.dm := rfl
@[simp] theorem State.setMstat_pm (s : State) (v : BitVec 7) : (s.setMstat v).pm = s.pm := rfl
@[simp] theorem State.setMstat_pmWritten (s : State) (v : BitVec 7) : (s.setMstat v).pmWritten = s.pmWritten := rfl
@[simp] theorem State.setMstat_platform (s : State) (v : BitVec 7) : (s.setMstat v).platform = s.platform := rfl

/-! `setBitRev` -/

@[simp] theorem State.setBitRev_iReg (s : State) (on : Bool) : (s.setBitRev on).iReg = s.iReg := rfl
@[simp] theorem State.setBitRev_mReg (s : State) (on : Bool) : (s.setBitRev on).mReg = s.mReg := rfl
@[simp] theorem State.setBitRev_lReg (s : State) (on : Bool) : (s.setBitRev on).lReg = s.lReg := rfl
@[simp] theorem State.setBitRev_px (s : State) (on : Bool) : (s.setBitRev on).px = s.px := rfl
@[simp] theorem State.setBitRev_mstat (s : State) (on : Bool) : (s.setBitRev on).mstat = withMstatBit s.mstat s.platform.bitRevPos on := rfl
@[simp] theorem State.setBitRev_pmovlay (s : State) (on : Bool) : (s.setBitRev on).pmovlay = s.pmovlay := rfl
@[simp] theorem State.setBitRev_dmovlay (s : State) (on : Bool) : (s.setBitRev on).dmovlay = s.dmovlay := rfl
@[simp] theorem State.setBitRev_primary (s : State) (on : Bool) : (s.setBitRev on).primary = s.primary := rfl
@[simp] theorem State.setBitRev_secondary (s : State) (on : Bool) : (s.setBitRev on).secondary = s.secondary := rfl
@[simp] theorem State.setBitRev_pc (s : State) (on : Bool) : (s.setBitRev on).pc = s.pc := rfl
@[simp] theorem State.setBitRev_dm (s : State) (on : Bool) : (s.setBitRev on).dm = s.dm := rfl
@[simp] theorem State.setBitRev_pm (s : State) (on : Bool) : (s.setBitRev on).pm = s.pm := rfl
@[simp] theorem State.setBitRev_pmWritten (s : State) (on : Bool) : (s.setBitRev on).pmWritten = s.pmWritten := rfl
@[simp] theorem State.setBitRev_platform (s : State) (on : Bool) : (s.setBitRev on).platform = s.platform := rfl

/-! `advance` -/

@[simp] theorem State.advance_iReg (s : State) : s.advance.iReg = s.iReg := rfl
@[simp] theorem State.advance_mReg (s : State) : s.advance.mReg = s.mReg := rfl
@[simp] theorem State.advance_lReg (s : State) : s.advance.lReg = s.lReg := rfl
@[simp] theorem State.advance_px (s : State) : s.advance.px = s.px := rfl
@[simp] theorem State.advance_mstat (s : State) : s.advance.mstat = s.mstat := rfl
@[simp] theorem State.advance_pmovlay (s : State) : s.advance.pmovlay = s.pmovlay := rfl
@[simp] theorem State.advance_dmovlay (s : State) : s.advance.dmovlay = s.dmovlay := rfl
@[simp] theorem State.advance_primary (s : State) : s.advance.primary = s.primary := rfl
@[simp] theorem State.advance_secondary (s : State) : s.advance.secondary = s.secondary := rfl
@[simp] theorem State.advance_pc (s : State) : s.advance.pc = nextPc s.pc := rfl
@[simp] theorem State.advance_dm (s : State) : s.advance.dm = s.dm := rfl
@[simp] theorem State.advance_pm (s : State) : s.advance.pm = s.pm := rfl
@[simp] theorem State.advance_pmWritten (s : State) : s.advance.pmWritten = s.pmWritten := rfl
@[simp] theorem State.advance_platform (s : State) : s.advance.platform = s.platform := rfl

/-! `setDmWord` -/

@[simp] theorem State.setDmWord_iReg (s : State) (c : Nat) (v : Word) : (s.setDmWord c v).iReg = s.iReg := rfl
@[simp] theorem State.setDmWord_mReg (s : State) (c : Nat) (v : Word) : (s.setDmWord c v).mReg = s.mReg := rfl
@[simp] theorem State.setDmWord_lReg (s : State) (c : Nat) (v : Word) : (s.setDmWord c v).lReg = s.lReg := rfl
@[simp] theorem State.setDmWord_px (s : State) (c : Nat) (v : Word) : (s.setDmWord c v).px = s.px := rfl
@[simp] theorem State.setDmWord_mstat (s : State) (c : Nat) (v : Word) : (s.setDmWord c v).mstat = s.mstat := rfl
@[simp] theorem State.setDmWord_pmovlay (s : State) (c : Nat) (v : Word) : (s.setDmWord c v).pmovlay = s.pmovlay := rfl
@[simp] theorem State.setDmWord_dmovlay (s : State) (c : Nat) (v : Word) : (s.setDmWord c v).dmovlay = s.dmovlay := rfl
@[simp] theorem State.setDmWord_primary (s : State) (c : Nat) (v : Word) : (s.setDmWord c v).primary = s.primary := rfl
@[simp] theorem State.setDmWord_secondary (s : State) (c : Nat) (v : Word) : (s.setDmWord c v).secondary = s.secondary := rfl
@[simp] theorem State.setDmWord_pc (s : State) (c : Nat) (v : Word) : (s.setDmWord c v).pc = s.pc := rfl
@[simp] theorem State.setDmWord_dm (s : State) (c : Nat) (v : Word) : (s.setDmWord c v).dm = s.dm.putWord16 c v := rfl
@[simp] theorem State.setDmWord_pm (s : State) (c : Nat) (v : Word) : (s.setDmWord c v).pm = s.pm := rfl
@[simp] theorem State.setDmWord_pmWritten (s : State) (c : Nat) (v : Word) : (s.setDmWord c v).pmWritten = s.pmWritten := rfl
@[simp] theorem State.setDmWord_platform (s : State) (c : Nat) (v : Word) : (s.setDmWord c v).platform = s.platform := rfl

/-! `setPmWord` -/

@[simp] theorem State.setPmWord_iReg (s : State) (c : Nat) (v : PmWord) : (s.setPmWord c v).iReg = s.iReg := rfl
@[simp] theorem State.setPmWord_mReg (s : State) (c : Nat) (v : PmWord) : (s.setPmWord c v).mReg = s.mReg := rfl
@[simp] theorem State.setPmWord_lReg (s : State) (c : Nat) (v : PmWord) : (s.setPmWord c v).lReg = s.lReg := rfl
@[simp] theorem State.setPmWord_px (s : State) (c : Nat) (v : PmWord) : (s.setPmWord c v).px = s.px := rfl
@[simp] theorem State.setPmWord_mstat (s : State) (c : Nat) (v : PmWord) : (s.setPmWord c v).mstat = s.mstat := rfl
@[simp] theorem State.setPmWord_pmovlay (s : State) (c : Nat) (v : PmWord) : (s.setPmWord c v).pmovlay = s.pmovlay := rfl
@[simp] theorem State.setPmWord_dmovlay (s : State) (c : Nat) (v : PmWord) : (s.setPmWord c v).dmovlay = s.dmovlay := rfl
@[simp] theorem State.setPmWord_primary (s : State) (c : Nat) (v : PmWord) : (s.setPmWord c v).primary = s.primary := rfl
@[simp] theorem State.setPmWord_secondary (s : State) (c : Nat) (v : PmWord) : (s.setPmWord c v).secondary = s.secondary := rfl
@[simp] theorem State.setPmWord_pc (s : State) (c : Nat) (v : PmWord) : (s.setPmWord c v).pc = s.pc := rfl
@[simp] theorem State.setPmWord_dm (s : State) (c : Nat) (v : PmWord) : (s.setPmWord c v).dm = s.dm := rfl
@[simp] theorem State.setPmWord_pm (s : State) (c : Nat) (v : PmWord) : (s.setPmWord c v).pm = s.pm.putWord24 c v := rfl
@[simp] theorem State.setPmWord_pmWritten (s : State) (c : Nat) (v : PmWord) : (s.setPmWord c v).pmWritten = s.pmWritten := rfl
@[simp] theorem State.setPmWord_platform (s : State) (c : Nat) (v : PmWord) : (s.setPmWord c v).platform = s.platform := rfl

/-! `markWritten` -/

@[simp] theorem State.markWritten_iReg (s : State) (c : Nat) : (s.markWritten c).iReg = s.iReg := rfl
@[simp] theorem State.markWritten_mReg (s : State) (c : Nat) : (s.markWritten c).mReg = s.mReg := rfl
@[simp] theorem State.markWritten_lReg (s : State) (c : Nat) : (s.markWritten c).lReg = s.lReg := rfl
@[simp] theorem State.markWritten_px (s : State) (c : Nat) : (s.markWritten c).px = s.px := rfl
@[simp] theorem State.markWritten_mstat (s : State) (c : Nat) : (s.markWritten c).mstat = s.mstat := rfl
@[simp] theorem State.markWritten_pmovlay (s : State) (c : Nat) : (s.markWritten c).pmovlay = s.pmovlay := rfl
@[simp] theorem State.markWritten_dmovlay (s : State) (c : Nat) : (s.markWritten c).dmovlay = s.dmovlay := rfl
@[simp] theorem State.markWritten_primary (s : State) (c : Nat) : (s.markWritten c).primary = s.primary := rfl
@[simp] theorem State.markWritten_secondary (s : State) (c : Nat) : (s.markWritten c).secondary = s.secondary := rfl
@[simp] theorem State.markWritten_pc (s : State) (c : Nat) : (s.markWritten c).pc = s.pc := rfl
@[simp] theorem State.markWritten_dm (s : State) (c : Nat) : (s.markWritten c).dm = s.dm := rfl
@[simp] theorem State.markWritten_pm (s : State) (c : Nat) : (s.markWritten c).pm = s.pm := rfl
@[simp] theorem State.markWritten_pmWritten (s : State) (c : Nat) : (s.markWritten c).pmWritten = insertNat s.pmWritten c := rfl
@[simp] theorem State.markWritten_platform (s : State) (c : Nat) : (s.markWritten c).platform = s.platform := rfl

/-! `setX` writes one of the two banks. -/

@[simp] theorem State.setX_iReg (s : State) (r : DReg) (v : Word) : (s.setX r v).iReg = s.iReg := by
  unfold State.setX; split <;> rfl
@[simp] theorem State.setX_mReg (s : State) (r : DReg) (v : Word) : (s.setX r v).mReg = s.mReg := by
  unfold State.setX; split <;> rfl
@[simp] theorem State.setX_lReg (s : State) (r : DReg) (v : Word) : (s.setX r v).lReg = s.lReg := by
  unfold State.setX; split <;> rfl
@[simp] theorem State.setX_px (s : State) (r : DReg) (v : Word) : (s.setX r v).px = s.px := by
  unfold State.setX; split <;> rfl
@[simp] theorem State.setX_mstat (s : State) (r : DReg) (v : Word) : (s.setX r v).mstat = s.mstat := by
  unfold State.setX; split <;> rfl
@[simp] theorem State.setX_pmovlay (s : State) (r : DReg) (v : Word) : (s.setX r v).pmovlay = s.pmovlay := by
  unfold State.setX; split <;> rfl
@[simp] theorem State.setX_dmovlay (s : State) (r : DReg) (v : Word) : (s.setX r v).dmovlay = s.dmovlay := by
  unfold State.setX; split <;> rfl
@[simp] theorem State.setX_pc (s : State) (r : DReg) (v : Word) : (s.setX r v).pc = s.pc := by
  unfold State.setX; split <;> rfl
@[simp] theorem State.setX_dm (s : State) (r : DReg) (v : Word) : (s.setX r v).dm = s.dm := by
  unfold State.setX; split <;> rfl
@[simp] theorem State.setX_pm (s : State) (r : DReg) (v : Word) : (s.setX r v).pm = s.pm := by
  unfold State.setX; split <;> rfl
@[simp] theorem State.setX_pmWritten (s : State) (r : DReg) (v : Word) : (s.setX r v).pmWritten = s.pmWritten := by
  unfold State.setX; split <;> rfl
@[simp] theorem State.setX_platform (s : State) (r : DReg) (v : Word) : (s.setX r v).platform = s.platform := by
  unfold State.setX; split <;> rfl

/-! `setDagReg` writes one of the three files. -/

@[simp] theorem State.setDagReg_px (s : State) (x : DagReg) (v : Addr) : (s.setDagReg x v).px = s.px := by
  unfold State.setDagReg; split <;> rfl
@[simp] theorem State.setDagReg_mstat (s : State) (x : DagReg) (v : Addr) : (s.setDagReg x v).mstat = s.mstat := by
  unfold State.setDagReg; split <;> rfl
@[simp] theorem State.setDagReg_pmovlay (s : State) (x : DagReg) (v : Addr) : (s.setDagReg x v).pmovlay = s.pmovlay := by
  unfold State.setDagReg; split <;> rfl
@[simp] theorem State.setDagReg_dmovlay (s : State) (x : DagReg) (v : Addr) : (s.setDagReg x v).dmovlay = s.dmovlay := by
  unfold State.setDagReg; split <;> rfl
@[simp] theorem State.setDagReg_primary (s : State) (x : DagReg) (v : Addr) : (s.setDagReg x v).primary = s.primary := by
  unfold State.setDagReg; split <;> rfl
@[simp] theorem State.setDagReg_secondary (s : State) (x : DagReg) (v : Addr) : (s.setDagReg x v).secondary = s.secondary := by
  unfold State.setDagReg; split <;> rfl
@[simp] theorem State.setDagReg_pc (s : State) (x : DagReg) (v : Addr) : (s.setDagReg x v).pc = s.pc := by
  unfold State.setDagReg; split <;> rfl
@[simp] theorem State.setDagReg_dm (s : State) (x : DagReg) (v : Addr) : (s.setDagReg x v).dm = s.dm := by
  unfold State.setDagReg; split <;> rfl
@[simp] theorem State.setDagReg_pm (s : State) (x : DagReg) (v : Addr) : (s.setDagReg x v).pm = s.pm := by
  unfold State.setDagReg; split <;> rfl
@[simp] theorem State.setDagReg_pmWritten (s : State) (x : DagReg) (v : Addr) : (s.setDagReg x v).pmWritten = s.pmWritten := by
  unfold State.setDagReg; split <;> rfl
@[simp] theorem State.setDagReg_platform (s : State) (x : DagReg) (v : Addr) : (s.setDagReg x v).platform = s.platform := by
  unfold State.setDagReg; split <;> rfl

/-! Registers read after a write. -/

theorem State.setI_i (s : State) (k n : Fin 8) (v : Addr) : (s.setI k v).i n = if k = n then v else s.i n := by
  simp [State.i, Vector.getElem_set, Fin.ext_iff]

theorem State.setM_m (s : State) (k n : Fin 8) (v : Addr) : (s.setM k v).m n = if k = n then v else s.m n := by
  simp [State.m, Vector.getElem_set, Fin.ext_iff]

theorem State.setL_l (s : State) (k n : Fin 8) (v : Addr) : (s.setL k v).l n = if k = n then v else s.l n := by
  simp [State.l, Vector.getElem_set, Fin.ext_iff]

theorem DReg.slot_inj {r q : DReg} : r.slot = q.slot ↔ r = q := by
  cases r <;> cases q <;> decide

/-- A data register read after a write to one. -/
theorem State.setX_x (s : State) (r q : DReg) (v : Word) : (s.setX r v).x q = if r = q then v else s.x q := by
  have hm : (s.setX r v).bankSel = s.bankSel := by simp [State.bankSel]
  unfold State.x
  rw [hm]
  by_cases h : s.bankSel = true
  · simp [State.setX, h, Vector.getElem_set, ← DReg.slot_inj, Fin.ext_iff]
  · simp [State.setX, h, Vector.getElem_set, ← DReg.slot_inj, Fin.ext_iff]

/-- The bank that is not selected keeps its content. -/
theorem State.setX_other_bank (s : State) (r : DReg) (v : Word) :
    (s.bankSel = true → (s.setX r v).primary = s.primary) ∧
      (s.bankSel = false → (s.setX r v).secondary = s.secondary) := by
  constructor <;> intro h <;> simp [State.setX, h]

/-- A DAG register read after a write to one. -/
theorem State.setDagReg_dagReg (s : State) (x y : DagReg) (v : Addr) :
    (s.setDagReg x v).dagReg y = if x = y then v else s.dagReg y := by
  obtain ⟨f, k⟩ := x
  obtain ⟨g, n⟩ := y
  cases f <;> cases g <;>
    simp [State.setDagReg, State.dagReg, State.setI_i, State.setM_m, State.setL_l] <;> rfl

theorem State.setDagReg_i (s : State) (x : DagReg) (v : Addr) (n : Fin 8) :
    (s.setDagReg x v).i n = if x = ⟨.index, n⟩ then v else s.i n :=
  s.setDagReg_dagReg x ⟨.index, n⟩ v

theorem State.setDagReg_m (s : State) (x : DagReg) (v : Addr) (n : Fin 8) :
    (s.setDagReg x v).m n = if x = ⟨.modify, n⟩ then v else s.m n :=
  s.setDagReg_dagReg x ⟨.modify, n⟩ v

theorem State.setDagReg_l (s : State) (x : DagReg) (v : Addr) (n : Fin 8) :
    (s.setDagReg x v).l n = if x = ⟨.length, n⟩ then v else s.l n :=
  s.setDagReg_dagReg x ⟨.length, n⟩ v

end Sys2Proof.Machine
end

