-- ==== Sys2Proof/Laws/Reads.lean ====
section
/-! SUPPORT. The reads that an update of the state leaves alone. -/

namespace Sys2Proof.Machine

/-! `setI` -/

@[simp] theorem State.setI_m (s : State) (k : Fin 8) (v : Addr) (n : Fin 8) : (s.setI k v).m n = s.m n := rfl
@[simp] theorem State.setI_l (s : State) (k : Fin 8) (v : Addr) (n : Fin 8) : (s.setI k v).l n = s.l n := rfl
@[simp] theorem State.setI_x (s : State) (k : Fin 8) (v : Addr) (q : DReg) : (s.setI k v).x q = s.x q := rfl
@[simp] theorem State.setI_bitRev (s : State) (k : Fin 8) (v : Addr) : (s.setI k v).bitRev = s.bitRev := rfl
@[simp] theorem State.setI_bankSel (s : State) (k : Fin 8) (v : Addr) : (s.setI k v).bankSel = s.bankSel := rfl
@[simp] theorem State.setI_dmByte (s : State) (k : Fin 8) (v : Addr) (n : Nat) : (s.setI k v).dmByte n = s.dmByte n := rfl
@[simp] theorem State.setI_dmWord (s : State) (k : Fin 8) (v : Addr) (n : Nat) : (s.setI k v).dmWord n = s.dmWord n := rfl
@[simp] theorem State.setI_pmByte (s : State) (k : Fin 8) (v : Addr) (n : Nat) : (s.setI k v).pmByte n = s.pmByte n := rfl
@[simp] theorem State.setI_pmWord (s : State) (k : Fin 8) (v : Addr) (n : Nat) : (s.setI k v).pmWord n = s.pmWord n := rfl
@[simp] theorem State.setI_pmWordQ (s : State) (k : Fin 8) (v : Addr) (n : Nat) : (s.setI k v).pmWord? n = s.pmWord? n := rfl
@[simp] theorem State.setI_cell (s : State) (k : Fin 8) (v : Addr) (sp : Space) (a : Addr) : (s.setI k v).cell sp a = s.cell sp a := rfl
@[simp] theorem State.setI_backed (s : State) (k : Fin 8) (v : Addr) (sp : Space) (a : Addr) : (s.setI k v).backed sp a = s.backed sp a := rfl
@[simp] theorem State.setI_hasDreg (s : State) (k : Fin 8) (v : Addr) (q : DReg) : (s.setI k v).hasDreg q = s.hasDreg q := rfl

/-! `setM` -/

@[simp] theorem State.setM_i (s : State) (k : Fin 8) (v : Addr) (n : Fin 8) : (s.setM k v).i n = s.i n := rfl
@[simp] theorem State.setM_l (s : State) (k : Fin 8) (v : Addr) (n : Fin 8) : (s.setM k v).l n = s.l n := rfl
@[simp] theorem State.setM_x (s : State) (k : Fin 8) (v : Addr) (q : DReg) : (s.setM k v).x q = s.x q := rfl
@[simp] theorem State.setM_bitRev (s : State) (k : Fin 8) (v : Addr) : (s.setM k v).bitRev = s.bitRev := rfl
@[simp] theorem State.setM_bankSel (s : State) (k : Fin 8) (v : Addr) : (s.setM k v).bankSel = s.bankSel := rfl
@[simp] theorem State.setM_dmByte (s : State) (k : Fin 8) (v : Addr) (n : Nat) : (s.setM k v).dmByte n = s.dmByte n := rfl
@[simp] theorem State.setM_dmWord (s : State) (k : Fin 8) (v : Addr) (n : Nat) : (s.setM k v).dmWord n = s.dmWord n := rfl
@[simp] theorem State.setM_pmByte (s : State) (k : Fin 8) (v : Addr) (n : Nat) : (s.setM k v).pmByte n = s.pmByte n := rfl
@[simp] theorem State.setM_pmWord (s : State) (k : Fin 8) (v : Addr) (n : Nat) : (s.setM k v).pmWord n = s.pmWord n := rfl
@[simp] theorem State.setM_pmWordQ (s : State) (k : Fin 8) (v : Addr) (n : Nat) : (s.setM k v).pmWord? n = s.pmWord? n := rfl
@[simp] theorem State.setM_cell (s : State) (k : Fin 8) (v : Addr) (sp : Space) (a : Addr) : (s.setM k v).cell sp a = s.cell sp a := rfl
@[simp] theorem State.setM_backed (s : State) (k : Fin 8) (v : Addr) (sp : Space) (a : Addr) : (s.setM k v).backed sp a = s.backed sp a := rfl
@[simp] theorem State.setM_hasDreg (s : State) (k : Fin 8) (v : Addr) (q : DReg) : (s.setM k v).hasDreg q = s.hasDreg q := rfl

/-! `setL` -/

@[simp] theorem State.setL_i (s : State) (k : Fin 8) (v : Addr) (n : Fin 8) : (s.setL k v).i n = s.i n := rfl
@[simp] theorem State.setL_m (s : State) (k : Fin 8) (v : Addr) (n : Fin 8) : (s.setL k v).m n = s.m n := rfl
@[simp] theorem State.setL_x (s : State) (k : Fin 8) (v : Addr) (q : DReg) : (s.setL k v).x q = s.x q := rfl
@[simp] theorem State.setL_bitRev (s : State) (k : Fin 8) (v : Addr) : (s.setL k v).bitRev = s.bitRev := rfl
@[simp] theorem State.setL_bankSel (s : State) (k : Fin 8) (v : Addr) : (s.setL k v).bankSel = s.bankSel := rfl
@[simp] theorem State.setL_dmByte (s : State) (k : Fin 8) (v : Addr) (n : Nat) : (s.setL k v).dmByte n = s.dmByte n := rfl
@[simp] theorem State.setL_dmWord (s : State) (k : Fin 8) (v : Addr) (n : Nat) : (s.setL k v).dmWord n = s.dmWord n := rfl
@[simp] theorem State.setL_pmByte (s : State) (k : Fin 8) (v : Addr) (n : Nat) : (s.setL k v).pmByte n = s.pmByte n := rfl
@[simp] theorem State.setL_pmWord (s : State) (k : Fin 8) (v : Addr) (n : Nat) : (s.setL k v).pmWord n = s.pmWord n := rfl
@[simp] theorem State.setL_pmWordQ (s : State) (k : Fin 8) (v : Addr) (n : Nat) : (s.setL k v).pmWord? n = s.pmWord? n := rfl
@[simp] theorem State.setL_cell (s : State) (k : Fin 8) (v : Addr) (sp : Space) (a : Addr) : (s.setL k v).cell sp a = s.cell sp a := rfl
@[simp] theorem State.setL_backed (s : State) (k : Fin 8) (v : Addr) (sp : Space) (a : Addr) : (s.setL k v).backed sp a = s.backed sp a := rfl
@[simp] theorem State.setL_hasDreg (s : State) (k : Fin 8) (v : Addr) (q : DReg) : (s.setL k v).hasDreg q = s.hasDreg q := rfl

/-! `setPx` -/

@[simp] theorem State.setPx_i (s : State) (v : Byte) (n : Fin 8) : (s.setPx v).i n = s.i n := rfl
@[simp] theorem State.setPx_m (s : State) (v : Byte) (n : Fin 8) : (s.setPx v).m n = s.m n := rfl
@[simp] theorem State.setPx_l (s : State) (v : Byte) (n : Fin 8) : (s.setPx v).l n = s.l n := rfl
@[simp] theorem State.setPx_x (s : State) (v : Byte) (q : DReg) : (s.setPx v).x q = s.x q := rfl
@[simp] theorem State.setPx_dagReg (s : State) (v : Byte) (y : DagReg) : (s.setPx v).dagReg y = s.dagReg y := rfl
@[simp] theorem State.setPx_bitRev (s : State) (v : Byte) : (s.setPx v).bitRev = s.bitRev := rfl
@[simp] theorem State.setPx_bankSel (s : State) (v : Byte) : (s.setPx v).bankSel = s.bankSel := rfl
@[simp] theorem State.setPx_dmByte (s : State) (v : Byte) (n : Nat) : (s.setPx v).dmByte n = s.dmByte n := rfl
@[simp] theorem State.setPx_dmWord (s : State) (v : Byte) (n : Nat) : (s.setPx v).dmWord n = s.dmWord n := rfl
@[simp] theorem State.setPx_pmByte (s : State) (v : Byte) (n : Nat) : (s.setPx v).pmByte n = s.pmByte n := rfl
@[simp] theorem State.setPx_pmWord (s : State) (v : Byte) (n : Nat) : (s.setPx v).pmWord n = s.pmWord n := rfl
@[simp] theorem State.setPx_pmWordQ (s : State) (v : Byte) (n : Nat) : (s.setPx v).pmWord? n = s.pmWord? n := rfl
@[simp] theorem State.setPx_cell (s : State) (v : Byte) (sp : Space) (a : Addr) : (s.setPx v).cell sp a = s.cell sp a := rfl
@[simp] theorem State.setPx_backed (s : State) (v : Byte) (sp : Space) (a : Addr) : (s.setPx v).backed sp a = s.backed sp a := rfl
@[simp] theorem State.setPx_hasDreg (s : State) (v : Byte) (q : DReg) : (s.setPx v).hasDreg q = s.hasDreg q := rfl

/-! `setMstat` -/

@[simp] theorem State.setMstat_i (s : State) (v : BitVec 7) (n : Fin 8) : (s.setMstat v).i n = s.i n := rfl
@[simp] theorem State.setMstat_m (s : State) (v : BitVec 7) (n : Fin 8) : (s.setMstat v).m n = s.m n := rfl
@[simp] theorem State.setMstat_l (s : State) (v : BitVec 7) (n : Fin 8) : (s.setMstat v).l n = s.l n := rfl
@[simp] theorem State.setMstat_dagReg (s : State) (v : BitVec 7) (y : DagReg) : (s.setMstat v).dagReg y = s.dagReg y := rfl
@[simp] theorem State.setMstat_dmByte (s : State) (v : BitVec 7) (n : Nat) : (s.setMstat v).dmByte n = s.dmByte n := rfl
@[simp] theorem State.setMstat_dmWord (s : State) (v : BitVec 7) (n : Nat) : (s.setMstat v).dmWord n = s.dmWord n := rfl
@[simp] theorem State.setMstat_pmByte (s : State) (v : BitVec 7) (n : Nat) : (s.setMstat v).pmByte n = s.pmByte n := rfl
@[simp] theorem State.setMstat_pmWord (s : State) (v : BitVec 7) (n : Nat) : (s.setMstat v).pmWord n = s.pmWord n := rfl
@[simp] theorem State.setMstat_pmWordQ (s : State) (v : BitVec 7) (n : Nat) : (s.setMstat v).pmWord? n = s.pmWord? n := rfl
@[simp] theorem State.setMstat_cell (s : State) (v : BitVec 7) (sp : Space) (a : Addr) : (s.setMstat v).cell sp a = s.cell sp a := rfl
@[simp] theorem State.setMstat_backed (s : State) (v : BitVec 7) (sp : Space) (a : Addr) : (s.setMstat v).backed sp a = s.backed sp a := rfl
@[simp] theorem State.setMstat_hasDreg (s : State) (v : BitVec 7) (q : DReg) : (s.setMstat v).hasDreg q = s.hasDreg q := rfl

/-! `setBitRev` -/

@[simp] theorem State.setBitRev_i (s : State) (on : Bool) (n : Fin 8) : (s.setBitRev on).i n = s.i n := rfl
@[simp] theorem State.setBitRev_m (s : State) (on : Bool) (n : Fin 8) : (s.setBitRev on).m n = s.m n := rfl
@[simp] theorem State.setBitRev_l (s : State) (on : Bool) (n : Fin 8) : (s.setBitRev on).l n = s.l n := rfl
@[simp] theorem State.setBitRev_dagReg (s : State) (on : Bool) (y : DagReg) : (s.setBitRev on).dagReg y = s.dagReg y := rfl
@[simp] theorem State.setBitRev_dmByte (s : State) (on : Bool) (n : Nat) : (s.setBitRev on).dmByte n = s.dmByte n := rfl
@[simp] theorem State.setBitRev_dmWord (s : State) (on : Bool) (n : Nat) : (s.setBitRev on).dmWord n = s.dmWord n := rfl
@[simp] theorem State.setBitRev_pmByte (s : State) (on : Bool) (n : Nat) : (s.setBitRev on).pmByte n = s.pmByte n := rfl
@[simp] theorem State.setBitRev_pmWord (s : State) (on : Bool) (n : Nat) : (s.setBitRev on).pmWord n = s.pmWord n := rfl
@[simp] theorem State.setBitRev_pmWordQ (s : State) (on : Bool) (n : Nat) : (s.setBitRev on).pmWord? n = s.pmWord? n := rfl
@[simp] theorem State.setBitRev_cell (s : State) (on : Bool) (sp : Space) (a : Addr) : (s.setBitRev on).cell sp a = s.cell sp a := rfl
@[simp] theorem State.setBitRev_backed (s : State) (on : Bool) (sp : Space) (a : Addr) : (s.setBitRev on).backed sp a = s.backed sp a := rfl
@[simp] theorem State.setBitRev_hasDreg (s : State) (on : Bool) (q : DReg) : (s.setBitRev on).hasDreg q = s.hasDreg q := rfl

/-! `advance` -/

@[simp] theorem State.advance_i (s : State) (n : Fin 8) : s.advance.i n = s.i n := rfl
@[simp] theorem State.advance_m (s : State) (n : Fin 8) : s.advance.m n = s.m n := rfl
@[simp] theorem State.advance_l (s : State) (n : Fin 8) : s.advance.l n = s.l n := rfl
@[simp] theorem State.advance_x (s : State) (q : DReg) : s.advance.x q = s.x q := rfl
@[simp] theorem State.advance_dagReg (s : State) (y : DagReg) : s.advance.dagReg y = s.dagReg y := rfl
@[simp] theorem State.advance_bitRev (s : State) : s.advance.bitRev = s.bitRev := rfl
@[simp] theorem State.advance_bankSel (s : State) : s.advance.bankSel = s.bankSel := rfl
@[simp] theorem State.advance_dmByte (s : State) (n : Nat) : s.advance.dmByte n = s.dmByte n := rfl
@[simp] theorem State.advance_dmWord (s : State) (n : Nat) : s.advance.dmWord n = s.dmWord n := rfl
@[simp] theorem State.advance_pmByte (s : State) (n : Nat) : s.advance.pmByte n = s.pmByte n := rfl
@[simp] theorem State.advance_pmWord (s : State) (n : Nat) : s.advance.pmWord n = s.pmWord n := rfl
@[simp] theorem State.advance_pmWordQ (s : State) (n : Nat) : s.advance.pmWord? n = s.pmWord? n := rfl
@[simp] theorem State.advance_cell (s : State) (sp : Space) (a : Addr) : s.advance.cell sp a = s.cell sp a := rfl
@[simp] theorem State.advance_backed (s : State) (sp : Space) (a : Addr) : s.advance.backed sp a = s.backed sp a := rfl
@[simp] theorem State.advance_hasDreg (s : State) (q : DReg) : s.advance.hasDreg q = s.hasDreg q := rfl

/-! `setDmWord` -/

@[simp] theorem State.setDmWord_i (s : State) (c : Nat) (v : Word) (n : Fin 8) : (s.setDmWord c v).i n = s.i n := rfl
@[simp] theorem State.setDmWord_m (s : State) (c : Nat) (v : Word) (n : Fin 8) : (s.setDmWord c v).m n = s.m n := rfl
@[simp] theorem State.setDmWord_l (s : State) (c : Nat) (v : Word) (n : Fin 8) : (s.setDmWord c v).l n = s.l n := rfl
@[simp] theorem State.setDmWord_x (s : State) (c : Nat) (v : Word) (q : DReg) : (s.setDmWord c v).x q = s.x q := rfl
@[simp] theorem State.setDmWord_dagReg (s : State) (c : Nat) (v : Word) (y : DagReg) : (s.setDmWord c v).dagReg y = s.dagReg y := rfl
@[simp] theorem State.setDmWord_bitRev (s : State) (c : Nat) (v : Word) : (s.setDmWord c v).bitRev = s.bitRev := rfl
@[simp] theorem State.setDmWord_bankSel (s : State) (c : Nat) (v : Word) : (s.setDmWord c v).bankSel = s.bankSel := rfl
@[simp] theorem State.setDmWord_pmByte (s : State) (c : Nat) (v : Word) (n : Nat) : (s.setDmWord c v).pmByte n = s.pmByte n := rfl
@[simp] theorem State.setDmWord_pmWord (s : State) (c : Nat) (v : Word) (n : Nat) : (s.setDmWord c v).pmWord n = s.pmWord n := rfl
@[simp] theorem State.setDmWord_pmWordQ (s : State) (c : Nat) (v : Word) (n : Nat) : (s.setDmWord c v).pmWord? n = s.pmWord? n := rfl
@[simp] theorem State.setDmWord_cell (s : State) (c : Nat) (v : Word) (sp : Space) (a : Addr) : (s.setDmWord c v).cell sp a = s.cell sp a := rfl
@[simp] theorem State.setDmWord_backed (s : State) (c : Nat) (v : Word) (sp : Space) (a : Addr) : (s.setDmWord c v).backed sp a = s.backed sp a := rfl
@[simp] theorem State.setDmWord_hasDreg (s : State) (c : Nat) (v : Word) (q : DReg) : (s.setDmWord c v).hasDreg q = s.hasDreg q := rfl

/-! `setPmWord` -/

@[simp] theorem State.setPmWord_i (s : State) (c : Nat) (v : PmWord) (n : Fin 8) : (s.setPmWord c v).i n = s.i n := rfl
@[simp] theorem State.setPmWord_m (s : State) (c : Nat) (v : PmWord) (n : Fin 8) : (s.setPmWord c v).m n = s.m n := rfl
@[simp] theorem State.setPmWord_l (s : State) (c : Nat) (v : PmWord) (n : Fin 8) : (s.setPmWord c v).l n = s.l n := rfl
@[simp] theorem State.setPmWord_x (s : State) (c : Nat) (v : PmWord) (q : DReg) : (s.setPmWord c v).x q = s.x q := rfl
@[simp] theorem State.setPmWord_dagReg (s : State) (c : Nat) (v : PmWord) (y : DagReg) : (s.setPmWord c v).dagReg y = s.dagReg y := rfl
@[simp] theorem State.setPmWord_bitRev (s : State) (c : Nat) (v : PmWord) : (s.setPmWord c v).bitRev = s.bitRev := rfl
@[simp] theorem State.setPmWord_bankSel (s : State) (c : Nat) (v : PmWord) : (s.setPmWord c v).bankSel = s.bankSel := rfl
@[simp] theorem State.setPmWord_dmByte (s : State) (c : Nat) (v : PmWord) (n : Nat) : (s.setPmWord c v).dmByte n = s.dmByte n := rfl
@[simp] theorem State.setPmWord_dmWord (s : State) (c : Nat) (v : PmWord) (n : Nat) : (s.setPmWord c v).dmWord n = s.dmWord n := rfl
@[simp] theorem State.setPmWord_cell (s : State) (c : Nat) (v : PmWord) (sp : Space) (a : Addr) : (s.setPmWord c v).cell sp a = s.cell sp a := rfl
@[simp] theorem State.setPmWord_backed (s : State) (c : Nat) (v : PmWord) (sp : Space) (a : Addr) : (s.setPmWord c v).backed sp a = s.backed sp a := rfl
@[simp] theorem State.setPmWord_hasDreg (s : State) (c : Nat) (v : PmWord) (q : DReg) : (s.setPmWord c v).hasDreg q = s.hasDreg q := rfl

/-! `markWritten` -/

@[simp] theorem State.markWritten_i (s : State) (c : Nat) (n : Fin 8) : (s.markWritten c).i n = s.i n := rfl
@[simp] theorem State.markWritten_m (s : State) (c : Nat) (n : Fin 8) : (s.markWritten c).m n = s.m n := rfl
@[simp] theorem State.markWritten_l (s : State) (c : Nat) (n : Fin 8) : (s.markWritten c).l n = s.l n := rfl
@[simp] theorem State.markWritten_x (s : State) (c : Nat) (q : DReg) : (s.markWritten c).x q = s.x q := rfl
@[simp] theorem State.markWritten_dagReg (s : State) (c : Nat) (y : DagReg) : (s.markWritten c).dagReg y = s.dagReg y := rfl
@[simp] theorem State.markWritten_bitRev (s : State) (c : Nat) : (s.markWritten c).bitRev = s.bitRev := rfl
@[simp] theorem State.markWritten_bankSel (s : State) (c : Nat) : (s.markWritten c).bankSel = s.bankSel := rfl
@[simp] theorem State.markWritten_dmByte (s : State) (c : Nat) (n : Nat) : (s.markWritten c).dmByte n = s.dmByte n := rfl
@[simp] theorem State.markWritten_dmWord (s : State) (c : Nat) (n : Nat) : (s.markWritten c).dmWord n = s.dmWord n := rfl
@[simp] theorem State.markWritten_pmByte (s : State) (c : Nat) (n : Nat) : (s.markWritten c).pmByte n = s.pmByte n := rfl
@[simp] theorem State.markWritten_pmWord (s : State) (c : Nat) (n : Nat) : (s.markWritten c).pmWord n = s.pmWord n := rfl
@[simp] theorem State.markWritten_pmWordQ (s : State) (c : Nat) (n : Nat) : (s.markWritten c).pmWord? n = s.pmWord? n := rfl
@[simp] theorem State.markWritten_cell (s : State) (c : Nat) (sp : Space) (a : Addr) : (s.markWritten c).cell sp a = s.cell sp a := rfl
@[simp] theorem State.markWritten_backed (s : State) (c : Nat) (sp : Space) (a : Addr) : (s.markWritten c).backed sp a = s.backed sp a := rfl
@[simp] theorem State.markWritten_hasDreg (s : State) (c : Nat) (q : DReg) : (s.markWritten c).hasDreg q = s.hasDreg q := rfl

/-! `setX` -/

@[simp] theorem State.setX_i (s : State) (r : DReg) (v : Word) (n : Fin 8) : (s.setX r v).i n = s.i n := by
  unfold State.setX; split <;> rfl
@[simp] theorem State.setX_m (s : State) (r : DReg) (v : Word) (n : Fin 8) : (s.setX r v).m n = s.m n := by
  unfold State.setX; split <;> rfl
@[simp] theorem State.setX_l (s : State) (r : DReg) (v : Word) (n : Fin 8) : (s.setX r v).l n = s.l n := by
  unfold State.setX; split <;> rfl
@[simp] theorem State.setX_dagReg (s : State) (r : DReg) (v : Word) (y : DagReg) : (s.setX r v).dagReg y = s.dagReg y := by
  unfold State.setX; split <;> rfl
@[simp] theorem State.setX_bitRev (s : State) (r : DReg) (v : Word) : (s.setX r v).bitRev = s.bitRev := by
  unfold State.setX; split <;> rfl
@[simp] theorem State.setX_bankSel (s : State) (r : DReg) (v : Word) : (s.setX r v).bankSel = s.bankSel := by
  unfold State.setX; split <;> rfl
@[simp] theorem State.setX_dmByte (s : State) (r : DReg) (v : Word) (n : Nat) : (s.setX r v).dmByte n = s.dmByte n := by
  unfold State.setX; split <;> rfl
@[simp] theorem State.setX_dmWord (s : State) (r : DReg) (v : Word) (n : Nat) : (s.setX r v).dmWord n = s.dmWord n := by
  unfold State.setX; split <;> rfl
@[simp] theorem State.setX_pmByte (s : State) (r : DReg) (v : Word) (n : Nat) : (s.setX r v).pmByte n = s.pmByte n := by
  unfold State.setX; split <;> rfl
@[simp] theorem State.setX_pmWord (s : State) (r : DReg) (v : Word) (n : Nat) : (s.setX r v).pmWord n = s.pmWord n := by
  unfold State.setX; split <;> rfl
@[simp] theorem State.setX_pmWordQ (s : State) (r : DReg) (v : Word) (n : Nat) : (s.setX r v).pmWord? n = s.pmWord? n := by
  unfold State.setX; split <;> rfl
@[simp] theorem State.setX_cell (s : State) (r : DReg) (v : Word) (sp : Space) (a : Addr) : (s.setX r v).cell sp a = s.cell sp a := by
  unfold State.setX; split <;> rfl
@[simp] theorem State.setX_backed (s : State) (r : DReg) (v : Word) (sp : Space) (a : Addr) : (s.setX r v).backed sp a = s.backed sp a := by
  unfold State.setX; split <;> rfl
@[simp] theorem State.setX_hasDreg (s : State) (r : DReg) (v : Word) (q : DReg) : (s.setX r v).hasDreg q = s.hasDreg q := by
  unfold State.setX; split <;> rfl

/-! `setDagReg` -/

@[simp] theorem State.setDagReg_x (s : State) (x : DagReg) (v : Addr) (q : DReg) : (s.setDagReg x v).x q = s.x q := by
  unfold State.setDagReg; split <;> rfl
@[simp] theorem State.setDagReg_bitRev (s : State) (x : DagReg) (v : Addr) : (s.setDagReg x v).bitRev = s.bitRev := by
  unfold State.setDagReg; split <;> rfl
@[simp] theorem State.setDagReg_bankSel (s : State) (x : DagReg) (v : Addr) : (s.setDagReg x v).bankSel = s.bankSel := by
  unfold State.setDagReg; split <;> rfl
@[simp] theorem State.setDagReg_dmByte (s : State) (x : DagReg) (v : Addr) (n : Nat) : (s.setDagReg x v).dmByte n = s.dmByte n := by
  unfold State.setDagReg; split <;> rfl
@[simp] theorem State.setDagReg_dmWord (s : State) (x : DagReg) (v : Addr) (n : Nat) : (s.setDagReg x v).dmWord n = s.dmWord n := by
  unfold State.setDagReg; split <;> rfl
@[simp] theorem State.setDagReg_pmByte (s : State) (x : DagReg) (v : Addr) (n : Nat) : (s.setDagReg x v).pmByte n = s.pmByte n := by
  unfold State.setDagReg; split <;> rfl
@[simp] theorem State.setDagReg_pmWord (s : State) (x : DagReg) (v : Addr) (n : Nat) : (s.setDagReg x v).pmWord n = s.pmWord n := by
  unfold State.setDagReg; split <;> rfl
@[simp] theorem State.setDagReg_pmWordQ (s : State) (x : DagReg) (v : Addr) (n : Nat) : (s.setDagReg x v).pmWord? n = s.pmWord? n := by
  unfold State.setDagReg; split <;> rfl
@[simp] theorem State.setDagReg_cell (s : State) (x : DagReg) (v : Addr) (sp : Space) (a : Addr) : (s.setDagReg x v).cell sp a = s.cell sp a := by
  unfold State.setDagReg; split <;> rfl
@[simp] theorem State.setDagReg_backed (s : State) (x : DagReg) (v : Addr) (sp : Space) (a : Addr) : (s.setDagReg x v).backed sp a = s.backed sp a := by
  unfold State.setDagReg; split <;> rfl
@[simp] theorem State.setDagReg_hasDreg (s : State) (x : DagReg) (v : Addr) (q : DReg) : (s.setDagReg x v).hasDreg q = s.hasDreg q := by
  unfold State.setDagReg; split <;> rfl

end Sys2Proof.Machine
end

