-- ==== Sys2Proof/Laws/AddressGen.lean ====
section
/-! SUPPORT. Address generation: the exponent and base of a buffer, the next address, the reversal, `AGEN`. -/

namespace Sys2Proof.Machine

/-! ## Signed values -/

theorem sval14_bounds (p : Addr) : -8192 ≤ sval14 p ∧ sval14 p ≤ 8191 := by
  have := p.isLt
  unfold sval14
  split <;> omega

theorem trunc14_toNat (z : Int) : ((trunc14 z).toNat : Int) = z % 16384 := by
  unfold trunc14
  rw [BitVec.toNat_ofNat]
  omega

theorem trunc14_of_range {z : Int} (h0 : 0 ≤ z) (h1 : z < 16384) : ((trunc14 z).toNat : Int) = z := by
  rw [trunc14_toNat]
  omega

/-- Two patterns are equal when their numbers are. -/
theorem addr_ext {a b : Addr} (h : (a.toNat : Int) = b.toNat) : a = b :=
  BitVec.eq_of_toNat_eq (by exact_mod_cast h)

/-! ## The buffer -/

theorem exponentFrom_le (len fuel n : Nat) (h : len ≤ 2 ^ (n + fuel)) :
    len ≤ 2 ^ exponentFrom len fuel n := by
  induction fuel generalizing n with
  | zero => simpa [exponentFrom] using h
  | succ fuel ih =>
    unfold exponentFrom
    split
    · assumption
    · exact ih (n + 1) (by rw [Nat.add_right_comm, Nat.add_assoc]; exact h)

theorem exponentFrom_least (len fuel n k : Nat) (h1 : n ≤ k) (h2 : k < exponentFrom len fuel n) :
    2 ^ k < len := by
  induction fuel generalizing n with
  | zero => simp [exponentFrom] at h2; omega
  | succ fuel ih =>
    unfold exponentFrom at h2
    split at h2
    · omega
    · rename_i hn
      rcases Nat.eq_or_lt_of_le h1 with rfl | hlt
      · omega
      · exact ih (n + 1) hlt h2

theorem exponentFrom_bound (len fuel n : Nat) : exponentFrom len fuel n ≤ n + fuel := by
  induction fuel generalizing n with
  | zero => simp [exponentFrom]
  | succ fuel ih =>
    unfold exponentFrom
    split
    · omega
    · have := ih (n + 1); omega

/-- The length fits in `2^n(L)` (R78). -/
theorem le_two_pow_bufferExponent {len : Nat} (h : len ≤ 2 ^ 14) : len ≤ 2 ^ bufferExponent len :=
  exponentFrom_le len 14 0 (by simpa using h)

/-- No smaller exponent will do (R78). -/
theorem bufferExponent_least {len k : Nat} (h : k < bufferExponent len) : 2 ^ k < len :=
  exponentFrom_least len 14 0 k (Nat.zero_le _) h

theorem bufferExponent_le (len : Nat) : bufferExponent len ≤ 14 := by
  have := exponentFrom_bound len 14 0
  unfold bufferExponent
  omega

/-- The distance of I from its base is what the mask keeps (R80). -/
theorem sub_bufferBase (i len : Nat) : i - bufferBase i len = i % 2 ^ bufferExponent len := by
  have := Nat.mod_le i (2 ^ bufferExponent len)
  unfold bufferBase
  omega

theorem bufferBase_le (i len : Nat) : bufferBase i len ≤ i := by
  unfold bufferBase; omega

/-- The base is a multiple of `2^n(L)` (R79). -/
theorem bufferBase_mod (i len : Nat) : bufferBase i len % 2 ^ bufferExponent len = 0 := by
  have h : bufferBase i len = 2 ^ bufferExponent len * (i / 2 ^ bufferExponent len) := by
    have := Nat.div_add_mod i (2 ^ bufferExponent len)
    unfold bufferBase
    omega
  rw [h, Nat.mul_mod_right]

/-- An address less than `2^n(L)` above a base has that base. -/
theorem bufferBase_add {b d len : Nat} (hb : b % 2 ^ bufferExponent len = 0) (hd : d < 2 ^ bufferExponent len) :
    bufferBase (b + d) len = b := by
  have : (b + d) % 2 ^ bufferExponent len = d := by
    rw [Nat.add_mod, hb, Nat.zero_add, Nat.mod_mod, Nat.mod_eq_of_lt hd]
  unfold bufferBase
  omega

/-- A buffer never extends past the top of the address space (R79). -/
theorem bufferBase_add_le {i len : Nat} (hi : i < 2 ^ 14) :
    bufferBase i len + 2 ^ bufferExponent len ≤ 2 ^ 14 := by
  have hpow : 2 ^ 14 = 2 ^ bufferExponent len * 2 ^ (14 - bufferExponent len) := by
    rw [← Nat.pow_add]
    congr 1
    have := bufferExponent_le len
    omega
  obtain ⟨q, hq⟩ := Nat.dvd_of_mod_eq_zero (bufferBase_mod i len)
  have hlt : bufferBase i len < 2 ^ 14 := Nat.lt_of_le_of_lt (bufferBase_le i len) hi
  rw [hpow, hq] at hlt
  have hq' : q < 2 ^ (14 - bufferExponent len) := Nat.lt_of_mul_lt_mul_left hlt
  rw [hq, hpow]
  calc 2 ^ bufferExponent len * q + 2 ^ bufferExponent len
      = 2 ^ bufferExponent len * (q + 1) := by ring
    _ ≤ _ := Nat.mul_le_mul_left _ hq'

theorem inBuffer_iff {i l : Addr} :
    inBuffer i l = true ↔ i.toNat % 2 ^ bufferExponent l.toNat < l.toNat := by
  unfold inBuffer
  rw [decide_eq_true_iff, sub_bufferBase]

/-! ## The next address -/

/-- The formula's value fits in 14 bits (R81). -/
theorem modFormula_toNat {i m l : Addr} (hl : l ≠ 0) :
    ((trunc14 (((i.toNat : Int) + sval14 m - bufferBase i.toNat l.toNat) % (l.toNat : Int) +
      bufferBase i.toNat l.toNat)).toNat : Int) =
      ((i.toNat : Int) + sval14 m - bufferBase i.toNat l.toNat) % (l.toNat : Int) + bufferBase i.toNat l.toNat := by
  have hl : 0 < l.toNat := by
    have : l.toNat ≠ 0 := fun h => hl (BitVec.eq_of_toNat_eq (by simpa using h))
    omega
  have hle : l.toNat ≤ 2 ^ bufferExponent l.toNat :=
    le_two_pow_bufferExponent (Nat.le_of_lt l.isLt)
  have htop := bufferBase_add_le (len := l.toNat) i.isLt
  have h1 := Int.emod_nonneg ((i.toNat : Int) + sval14 m - bufferBase i.toNat l.toNat)
    (b := (l.toNat : Int)) (by omega)
  have h2 := Int.emod_lt_of_pos ((i.toNat : Int) + sval14 m - bufferBase i.toNat l.toNat)
    (b := (l.toNat : Int)) (by omega)
  apply trunc14_of_range
  · omega
  · generalize ((i.toNat : Int) + sval14 m - bufferBase i.toNat l.toNat) % (l.toNat : Int) = r at *
    generalize bufferBase i.toNat l.toNat = b at *
    generalize 2 ^ bufferExponent l.toNat = p at *
    omega

/-- `MODNEXT` answers exactly inside the two conditions, and then the formula's value (R81). -/
theorem modNext_ok_iff {i m l v : Addr} :
    modNext i m l = .ok v ↔ inBuffer i l = true ∧ modifyBelowLength m l = true ∧
      v = trunc14 (((i.toNat : Int) + sval14 m - bufferBase i.toNat l.toNat) % (l.toNat : Int) +
        bufferBase i.toNat l.toNat) := by
  unfold modNext
  cases hi : inBuffer i l <;> cases hm : modifyBelowLength m l <;> simp [eq_comm]

/-- I outside its buffer is refused (R83). -/
theorem modNext_outside {i l : Addr} (m : Addr) (h : inBuffer i l = false) :
    modNext i m l = .error (.refuse .indexOutsideBuffer) := by
  simp [modNext, h]

/-- A modify value as long as the buffer or longer is refused (R82). -/
theorem modNext_tooLong {i m l : Addr} (hi : inBuffer i l = true) (h : modifyBelowLength m l = false) :
    modNext i m l = .error (.refuse .modifyNotBelowLength) := by
  simp [modNext, hi, h]

theorem postModify_linear (i m : Addr) : postModify i m 0 = .ok (linearNext i m) := by
  simp [postModify]

theorem postModify_circular {l : Addr} (i m : Addr) (h : l ≠ 0) : postModify i m l = modNext i m l :=
  if_neg h

/-- The update has a result exactly under the conditions of R70, R82 and R83. -/
theorem postModify_ok_iff {i m l : Addr} :
    (∃ v, postModify i m l = .ok v) ↔ l = 0 ∨ (inBuffer i l = true ∧ modifyBelowLength m l = true) := by
  by_cases h : l = 0
  · simp [postModify, h]
  · rw [postModify_circular i m h]
    simp [modNext_ok_iff, show ¬(l = 0#14) from h]

/-- Where the update has a result and the length is not 0, it is the formula's value, as a number (R81). -/
theorem postModify_toNat {i m l v : Addr} (hl : l ≠ 0) (h : postModify i m l = .ok v) :
    (v.toNat : Int) =
      ((i.toNat : Int) + sval14 m - bufferBase i.toNat l.toNat) % (l.toNat : Int) + bufferBase i.toNat l.toNat := by
  rw [postModify_circular i m hl, modNext_ok_iff] at h
  obtain ⟨_, _, rfl⟩ := h
  exact modFormula_toNat hl

/-! ## Reversal -/

theorem getLsbD_bitRev14 (a : Addr) (k : Nat) (hk : k < 14) :
    (bitRev14 a).getLsbD k = a.getLsbD (13 - k) := by
  unfold bitRev14
  rw [BitVec.getLsbD_eq_getElem hk]
  simp

/-! ## AGEN -/

/-- `AGEN` answers exactly on a legal operand whose update has a result, and then these two results (R67). -/
theorem agen_ok_iff {s : State} {i j : Fin 8} {g : AgenResult} :
    agen s i j = .ok g ↔ dmOperandOk i j = true ∧ s.nextI i j = .ok g.next ∧ g.out = s.outAddr i := by
  obtain ⟨out, next⟩ := g
  cases h : dmOperandOk i j
  · simp [agen, h]
  · cases hn : s.nextI i j with
    | error e => simp [agen, h, hn, bind, Except.bind]
    | ok v => simp [agen, h, hn, bind, Except.bind, pure, Except.pure, and_comm, eq_comm]

theorem agenPm_ok_iff {s : State} {i j : Fin 8} {g : AgenResult} :
    agenPm s i j = .ok g ↔ pmOperandOk i j = true ∧ s.nextI i j = .ok g.next ∧ g.out = s.i i := by
  unfold agenPm
  cases h : pmOperandOk i j
  · simp
  · obtain ⟨h2, h3⟩ : (dagOf i == 2) = true ∧ (dagOf i == dagOf j) = true := by
      simpa [pmOperandOk] using h
    simp only [if_true, true_and]
    rw [agen_ok_iff]
    have : dagOf i = 2 := by simpa using h2
    have h4 : dmOperandOk i j = true := h3
    simp [h4, State.outAddr, outputAddr, this]

/-- A refusal of the update is a refusal of `AGEN` (R81). -/
theorem agen_refused {s : State} {i j : Fin 8} {e : Stop} (h : dmOperandOk i j = true) (hn : s.nextI i j = .error e) :
    agen s i j = .error e := by
  simp [agen, h, hn, bind, Except.bind]

theorem agenPm_refused {s : State} {i j : Fin 8} {e : Stop} (h : pmOperandOk i j = true) (hn : s.nextI i j = .error e) :
    agenPm s i j = .error e := by
  have h4 : dmOperandOk i j = true := by
    have := h
    simp only [pmOperandOk, Bool.and_eq_true] at this
    exact this.2
  simp [agenPm, h, agen_refused h4 hn]

theorem agen_illFormed {s : State} {i j : Fin 8} (h : dmOperandOk i j = false) :
    agen s i j = .error (.refuse .illFormedOperand) := by
  simp [agen, h]

theorem agenPm_illFormed {s : State} {i j : Fin 8} (h : pmOperandOk i j = false) :
    agenPm s i j = .error (.refuse .illFormedOperand) := by
  simp [agenPm, h]

/-! ## The mode bit -/

theorem withMstatBit_getLsbD (v : BitVec 7) (pos : Fin 7) (on : Bool) (k : Nat) (hk : k < 7) :
    (withMstatBit v pos on).getLsbD k = if k = pos.val then on else v.getLsbD k := by
  have hp := pos.isLt
  unfold withMstatBit
  by_cases h : k = pos.val
  · subst h; cases on <;> simp
  · cases on <;> simp [h, hk]

/-- The bit reads as it was set (R93, R94). -/
theorem mstatBit_withMstatBit (v : BitVec 7) (pos : Fin 7) (on : Bool) :
    mstatBit (withMstatBit v pos on) pos = on := by
  unfold mstatBit
  rw [withMstatBit_getLsbD v pos on pos.val pos.isLt]
  simp

/-- Every other bit reads as before (R93, R94). -/
theorem mstatBit_withMstatBit_other (v : BitVec 7) {pos p : Fin 7} (on : Bool) (h : p ≠ pos) :
    mstatBit (withMstatBit v pos on) p = mstatBit v p := by
  unfold mstatBit
  rw [withMstatBit_getLsbD v pos on p.val p.isLt, if_neg fun e => h (Fin.ext e)]

/-- Setting the bit to what it is changes nothing (R93, corner cases). -/
theorem withMstatBit_same (v : BitVec 7) (pos : Fin 7) : withMstatBit v pos (mstatBit v pos) = v := by
  apply BitVec.eq_of_getLsbD_eq
  intro k hk
  rw [withMstatBit_getLsbD v pos _ k hk]
  split
  · rename_i h; subst h; rfl
  · rfl

@[simp] theorem State.setBitRev_bitRev (s : State) (on : Bool) : (s.setBitRev on).bitRev = on :=
  mstatBit_withMstatBit _ _ _

/-- The mode statements leave the register bank selected as it is. -/
@[simp] theorem State.setBitRev_bankSel (s : State) (on : Bool) : (s.setBitRev on).bankSel = s.bankSel := by
  unfold State.bankSel
  cases h : s.platform.bankPos with
  | none => simp [h]
  | some p =>
    by_cases hp : p = s.platform.bitRevPos
    · simp [h, hp]
    · simp [h, mstatBit_withMstatBit_other _ on hp]

/-! ## The DMD bus -/

/-- What a DAG register puts on the bus, a DAG register takes back whole (R58, R59, R60). -/
theorem dagOfBus_busOfDag (f : DagFile) (v : Addr) : dagOfBus (busOfDag f v) = v := by
  unfold dagOfBus busOfDag
  ext k hk
  cases f <;> simp [BitVec.getLsbD_setWidth, BitVec.getLsbD_signExtend, hk] <;> omega

/-- PX takes back what it puts on the bus (R101, R102). -/
theorem pxOfBus_busOfPx (v : Byte) : pxOfBus (busOfPx v) = v := by
  unfold pxOfBus busOfPx
  ext k hk
  simp [BitVec.getLsbD_setWidth, hk]
  omega

/-- A program memory word is its two parts (R32). -/
theorem joinWord_parts (w : PmWord) : joinWord (upperOf w) (lowerOf w) = w := by
  unfold joinWord upperOf lowerOf
  ext k hk
  simp only [BitVec.getElem_append, BitVec.getElem_extractLsb']
  split
  · simp [BitVec.getLsbD_eq_getElem hk]
  · rw [← BitVec.getLsbD_eq_getElem hk]; congr 1; omega

end Sys2Proof.Machine
end

