-- ==== Sys2Proof/Laws/Memory.lean ====
section
/-! SUPPORT. Memory: a read after a write, the canonical form, cells, and the operations that reach memory. -/

namespace Sys2Proof.Machine

/-! ## One lane -/

theorem Memory.lookup_put_same (m : Memory) (k : Nat) (b : Byte) : (m.put k b).lookup k = some b := by
  induction m with
  | nil => simp [Memory.put, Memory.lookup]
  | cons e rest ih =>
    obtain ⟨a, v⟩ := e
    unfold Memory.put
    split
    · simp [Memory.lookup]
    · split
      · simp [Memory.lookup]
      · simp [Memory.lookup, *]

theorem Memory.lookup_put_other (m : Memory) {k n : Nat} (b : Byte) (h : n ≠ k) :
    (m.put k b).lookup n = m.lookup n := by
  induction m with
  | nil => simp [Memory.put, Memory.lookup, h]
  | cons e rest ih =>
    obtain ⟨a, v⟩ := e
    unfold Memory.put
    split
    · simp [Memory.lookup, h]
    · split
      · rename_i hk
        simp [Memory.lookup, h, ← hk]
      · simp [Memory.lookup, ih]

theorem Memory.lookup_put (m : Memory) (k n : Nat) (b : Byte) :
    (m.put k b).lookup n = if n = k then some b else m.lookup n := by
  by_cases h : n = k
  · subst h; simp [Memory.lookup_put_same]
  · simp [Memory.lookup_put_other, h]

/-- Every key of a memory after `put` is the new key or an old one. -/
theorem Memory.mem_put {m : Memory} {k : Nat} {b : Byte} {e : Host.Cell} (h : e ∈ m.put k b) :
    e = (k, b) ∨ e ∈ m := by
  induction m with
  | nil => simpa [Memory.put] using h
  | cons d rest ih =>
    obtain ⟨a, v⟩ := d
    unfold Memory.put at h
    split at h
    · simpa using h
    · split at h
      · simp only [List.mem_cons] at h ⊢
        tauto
      · simp only [List.mem_cons] at h ⊢
        rcases h with h | h
        · exact .inr (.inl h)
        · rcases ih h with h | h <;> tauto

theorem Memory.put_wf {m : Memory} (k : Nat) (b : Byte) (h : m.wf) : (m.put k b).wf := by
  induction m with
  | nil => simp [Memory.put]
  | cons e rest ih =>
    obtain ⟨a, v⟩ := e
    obtain ⟨h1, h2⟩ := List.pairwise_cons.1 h
    unfold Memory.put
    split
    · rename_i hk
      refine List.pairwise_cons.2 ⟨fun d hd => ?_, h⟩
      rcases List.mem_cons.1 hd with rfl | hd
      · exact hk
      · exact Nat.lt_trans hk (h1 d hd)
    · split
      · rename_i hk
        subst hk
        exact List.pairwise_cons.2 ⟨h1, h2⟩
      · refine List.pairwise_cons.2 ⟨fun d hd => ?_, ih h2⟩
        rcases Memory.mem_put hd with rfl | hd
        · show a < k
          omega
        · exact h1 d hd

/-! ## Words -/

theorem Memory.putWord16_wf {m : Memory} (c : Nat) (v : Word) (h : m.wf) : (m.putWord16 c v).wf :=
  Memory.put_wf _ _ (Memory.put_wf _ _ h)

theorem Memory.putWord24_wf {m : Memory} (c : Nat) (v : PmWord) (h : m.wf) : (m.putWord24 c v).wf :=
  Memory.put_wf _ _ (Memory.put_wf _ _ (Memory.put_wf _ _ h))

/-- A 16-bit word is its two bytes. -/
theorem append_bytes16 (v : Word) : v.extractLsb' 8 8 ++ v.extractLsb' 0 8 = v := by
  ext k hk
  simp only [BitVec.getElem_append, BitVec.getElem_extractLsb']
  split
  · simp [BitVec.getLsbD_eq_getElem hk]
  · rw [← BitVec.getLsbD_eq_getElem hk]; congr 1; omega

/-- A 24-bit word is its three bytes. -/
theorem append_bytes24 (v : PmWord) :
    v.extractLsb' 16 8 ++ v.extractLsb' 8 8 ++ v.extractLsb' 0 8 = v := by
  ext k hk
  simp only [BitVec.getElem_append, BitVec.getElem_extractLsb']
  split
  · simp [BitVec.getLsbD_eq_getElem hk]
  · split
    · rw [← BitVec.getLsbD_eq_getElem hk]; congr 1; omega
    · rw [← BitVec.getLsbD_eq_getElem hk]; congr 1; omega

/-- A lane outside a written data memory word keeps its byte. -/
theorem State.setDmWord_dmByte_other (s : State) (c : Nat) (v : Word) {k : Nat} (h : k / 2 ≠ c) :
    (s.setDmWord c v).dmByte k = s.dmByte k := by
  have h0 : k ≠ 2 * c := by omega
  have h1 : k ≠ 2 * c + 1 := by omega
  simp [State.dmByte, Memory.putWord16, Memory.lookup_put, h0, h1]

theorem State.setDmWord_dmWord (s : State) (c n : Nat) (v : Word) :
    (s.setDmWord c v).dmWord n = if n = c then v else s.dmWord n := by
  by_cases h : n = c
  · subst h
    simp [State.dmWord, State.dmByte, Memory.putWord16, Memory.lookup_put, append_bytes16]
  · have h0 : (2 * n) / 2 ≠ c := by omega
    have h1 : (2 * n + 1) / 2 ≠ c := by omega
    simp [State.dmWord, h, State.setDmWord_dmByte_other s c v h0, State.setDmWord_dmByte_other s c v h1]

/-- A lane outside a written program memory word keeps its byte. -/
theorem State.setPmWord_pmByte_other (s : State) (c : Nat) (v : PmWord) {k : Nat} (h : k / 3 ≠ c) :
    (s.setPmWord c v).pmByte k = s.pmByte k := by
  have h0 : k ≠ 3 * c := by omega
  have h1 : k ≠ 3 * c + 1 := by omega
  have h2 : k ≠ 3 * c + 2 := by omega
  simp [State.pmByte, Memory.putWord24, Memory.lookup_put, h0, h1, h2]

theorem State.setPmWord_pmWord (s : State) (c n : Nat) (v : PmWord) :
    (s.setPmWord c v).pmWord n = if n = c then v else s.pmWord n := by
  by_cases h : n = c
  · subst h
    simp [State.pmWord, State.pmByte, Memory.putWord24, Memory.lookup_put, append_bytes24]
  · have h0 : (3 * n) / 3 ≠ c := by omega
    have h1 : (3 * n + 1) / 3 ≠ c := by omega
    have h2 : (3 * n + 2) / 3 ≠ c := by omega
    simp [State.pmWord, h, State.setPmWord_pmByte_other s c v h0, State.setPmWord_pmByte_other s c v h1,
      State.setPmWord_pmByte_other s c v h2]

/-- The fetchable word of a cell, read after a write of a cell. -/
theorem State.setPmWord_pmWord? (s : State) (c n : Nat) (v : PmWord) :
    (s.setPmWord c v).pmWord? n = if n = c then some v else s.pmWord? n := by
  by_cases h : n = c
  · subst h
    simp [State.pmWord?, Memory.putWord24, Memory.lookup_put, append_bytes24]
  · have e0 : 3 * n ≠ 3 * c + 1 := by omega
    have e1 : 3 * n ≠ 3 * c + 2 := by omega
    have e2 : 3 * n + 1 ≠ 3 * c := by omega
    have e4 : 3 * n + 2 ≠ 3 * c := by omega
    have e5 : 3 * n + 2 ≠ 3 * c + 1 := by omega
    simp [State.pmWord?, Memory.putWord24, Memory.lookup_put, h, e0, e1, e2, e4, e5]

/-- A word that can be fetched is the word that a data read gives. -/
theorem State.pmWord_of_pmWord? {s : State} {c : Nat} {w : PmWord} (h : s.pmWord? c = some w) :
    s.pmWord c = w := by
  unfold State.pmWord? at h
  cases h2 : s.pm.lookup (3 * c + 2) with
  | none => simp [h2] at h
  | some x2 =>
    cases h1 : s.pm.lookup (3 * c + 1) with
    | none => simp [h2, h1] at h
    | some x1 =>
      cases h0 : s.pm.lookup (3 * c) with
      | none => simp [h2, h1, h0] at h
      | some x0 =>
        simp [h2, h1, h0] at h
        simp [State.pmWord, State.pmByte, h2, h1, h0, h]

/-! ## The record of written cells -/

theorem mem_insertNat {l : List Nat} {k n : Nat} : n ∈ insertNat l k ↔ n = k ∨ n ∈ l := by
  induction l with
  | nil => simp [insertNat]
  | cons a rest ih =>
    unfold insertNat
    split
    · simp
    · split
      · simp_all
      · simp [ih]; tauto

theorem insertNat_rising {l : List Nat} (k : Nat) (h : l.Pairwise (· < ·)) :
    (insertNat l k).Pairwise (· < ·) := by
  induction l with
  | nil => simp [insertNat]
  | cons a rest ih =>
    obtain ⟨h1, h2⟩ := List.pairwise_cons.1 h
    unfold insertNat
    split
    · rename_i hk
      refine List.pairwise_cons.2 ⟨fun d hd => ?_, h⟩
      rcases List.mem_cons.1 hd with rfl | hd
      · exact hk
      · exact Nat.lt_trans hk (h1 d hd)
    · split
      · exact h
      · refine List.pairwise_cons.2 ⟨fun d hd => ?_, ih h2⟩
        rcases mem_insertNat.1 hd with rfl | hd
        · omega
        · exact h1 d hd

/-! ## Cells -/

/-- Where the platform lists a route, it gives the cell (R36). -/
theorem cellOf_route {p : Platform} {sp : Space} {sel : OvlSel} {a : Addr} {r : Route}
    (h : p.routes.find? (fun r => r.place == ⟨sp, sel, a⟩) = some r) : cellOf p sp sel a = r.cell := by
  simp [cellOf, h]

/-- Outside every overlay region the selection has no part in the cell (R36). -/
theorem cellOf_common {p : Platform} {sp : Space} {a : Addr} (sel : OvlSel)
    (h : inOverlay p sp a = false) : cellOf p sp sel a = a.toNat := by
  unfold cellOf
  cases hf : p.routes.find? (fun r => r.place == ⟨sp, sel, a⟩) with
  | none => rfl
  | some r =>
    exfalso
    have hm := List.mem_of_find?_eq_some hf
    have hp : r.place = ⟨sp, sel, a⟩ := by
      have := List.find?_some hf
      simpa using this
    have : inOverlay p sp a = true := by
      unfold inOverlay
      rw [List.any_eq_true]
      exact ⟨r, hm, by simp [hp]⟩
    rw [h] at this
    cases this

/-! ## Accesses: what each can do -/

theorem access_ok_iff {s : State} {sp : Space} {a : Addr} {u : Unit} :
    access s sp a = .ok u ↔ s.backed sp a = true := by
  unfold access
  split <;> simp_all

theorem access_of_backed {s : State} {sp : Space} {a : Addr} (h : s.backed sp a = true) :
    access s sp a = .ok () := access_ok_iff.2 h

theorem access_of_unbacked {s : State} {sp : Space} {a : Addr} (h : s.backed sp a = false) :
    access s sp a = .error (.fault (.unbacked (s.place sp a))) := by
  simp [access, h]

/-- A data memory read answers a word exactly when the place is backed, and then the word in the cell. -/
theorem readDm_ok_iff {s : State} {a : Addr} {d : Word} :
    readDm s a = .ok d ↔ s.backed .dm a = true ∧ d = s.dmWord (s.cell .dm a) := by
  cases h : s.backed .dm a
  · simp [readDm, access_of_unbacked h, bind, Except.bind]
  · simp [readDm, access_of_backed h, bind, Except.bind, pure, Except.pure, eq_comm]

theorem readPm_ok_iff {s : State} {a : Addr} {d : PmWord} :
    readPm s a = .ok d ↔ s.backed .pm a = true ∧ d = s.pmWord (s.cell .pm a) := by
  cases h : s.backed .pm a
  · simp [readPm, access_of_unbacked h, bind, Except.bind]
  · simp [readPm, access_of_backed h, bind, Except.bind, pure, Except.pure, eq_comm]

theorem writeDm_ok_iff {s t : State} {a : Addr} {v : Word} :
    writeDm s a v = .ok t ↔ s.backed .dm a = true ∧ t = s.setDmWord (s.cell .dm a) v := by
  cases h : s.backed .dm a
  · simp [writeDm, access_of_unbacked h, bind, Except.bind]
  · simp [writeDm, access_of_backed h, bind, Except.bind, pure, Except.pure, eq_comm]

theorem writePm_ok_iff {s t : State} {a : Addr} {v : PmWord} :
    writePm s a v = .ok t ↔
      s.backed .pm a = true ∧ t = (s.setPmWord (s.cell .pm a) v).markWritten (s.cell .pm a) := by
  cases h : s.backed .pm a
  · simp [writePm, access_of_unbacked h, bind, Except.bind]
  · simp [writePm, access_of_backed h, bind, Except.bind, pure, Except.pure, eq_comm]

theorem readDm_unbacked {s : State} {a : Addr} (h : s.backed .dm a = false) :
    readDm s a = .error (.fault (.unbacked (s.place .dm a))) := by
  simp [readDm, access_of_unbacked h, bind, Except.bind]

theorem readPm_unbacked {s : State} {a : Addr} (h : s.backed .pm a = false) :
    readPm s a = .error (.fault (.unbacked (s.place .pm a))) := by
  simp [readPm, access_of_unbacked h, bind, Except.bind]

theorem writeDm_unbacked {s : State} {a : Addr} (v : Word) (h : s.backed .dm a = false) :
    writeDm s a v = .error (.fault (.unbacked (s.place .dm a))) := by
  simp [writeDm, access_of_unbacked h, bind, Except.bind]

theorem writePm_unbacked {s : State} {a : Addr} (v : PmWord) (h : s.backed .pm a = false) :
    writePm s a v = .error (.fault (.unbacked (s.place .pm a))) := by
  simp [writePm, access_of_unbacked h, bind, Except.bind]

/-- What a fetch that answers a word has checked. -/
theorem fetch_ok_iff {s : State} {w : PmWord} :
    fetch s = .ok w ↔ s.backed .pm s.pc = true ∧ s.cell .pm s.pc ∉ s.pmWritten ∧
      s.pmWord? (s.cell .pm s.pc) = some w := by
  cases h : s.backed .pm s.pc
  · simp [fetch, access_of_unbacked h]
  · by_cases hw : s.cell .pm s.pc ∈ s.pmWritten
    · simp [fetch, access_of_backed h, hw]
    · cases hp : s.pmWord? (s.cell .pm s.pc) with
      | none => simp [fetch, access_of_backed h, hw, hp]
      | some x => simp [fetch, access_of_backed h, hw, hp]

/-! ## Outcomes -/

theorem finish_next_iff {r : Res State} {t : State} : finish r = .next t ↔ r = .ok t := by
  cases r with
  | ok s => simp [finish]
  | error e => cases e <;> simp [finish]

/-- Results chained by `do`: the whole answers a value exactly when both parts do. -/
theorem bind_ok_iff {α β : Type} {r : Res α} {f : α → Res β} {b : β} :
    (r >>= f) = .ok b ↔ ∃ a, r = .ok a ∧ f a = .ok b := by
  cases r <;> simp [bind, Except.bind]

end Sys2Proof.Machine
end

