-- ==== Sys2Proof/Laws/Meanings.lean ====
section
/-! SUPPORT. One inversion lemma for each meaning: exactly when it answers a next state, and which. -/

namespace Sys2Proof.Machine

theorem execLdiDag_next_iff {x : DagReg} {imm : Addr} {s t : State} :
    execLdiDag x imm s = .next t ↔ t = (s.setDagReg x imm).advance := by
  simp [execLdiDag, finish, eq_comm]

theorem execMovToDag_next_iff {x : DagReg} {src : MoveSrc} {s t : State} :
    execMovToDag x src s = .next t ↔ t = (s.setDagReg x (dagOfBus (s.moveValue src))).advance := by
  simp [execMovToDag, finish, State.writeDag, eq_comm]

theorem execMovFromDag_next_iff {r : DReg} {x : DagReg} {s t : State} :
    execMovFromDag r x s = .next t ↔ t = (s.setX r (busOfDag x.file (s.dagReg x))).advance := by
  simp [execMovFromDag, finish, State.readDag, eq_comm]

theorem execLdDmDirect_next_iff {d : DirectReg} {a : Addr} {s t : State} :
    execLdDmDirect d a s = .next t ↔
      s.backed .dm a = true ∧ t = (s.setDirect d (s.dmWord (s.cell .dm a))).advance := by
  unfold execLdDmDirect
  rw [finish_next_iff, bind_ok_iff]
  constructor
  · rintro ⟨w, hw, ht⟩
    obtain ⟨hb, rfl⟩ := readDm_ok_iff.1 hw
    exact ⟨hb, by cases ht; rfl⟩
  · rintro ⟨hb, rfl⟩
    exact ⟨_, readDm_ok_iff.2 ⟨hb, rfl⟩, rfl⟩

theorem execStDmDirect_next_iff {a : Addr} {d : DirectReg} {s t : State} :
    execStDmDirect a d s = .next t ↔
      s.backed .dm a = true ∧ t = (s.setDmWord (s.cell .dm a) (s.directValue d)).advance := by
  unfold execStDmDirect
  rw [finish_next_iff, bind_ok_iff]
  constructor
  · rintro ⟨u, hu, ht⟩
    obtain ⟨hb, rfl⟩ := writeDm_ok_iff.1 hu
    exact ⟨hb, by cases ht; rfl⟩
  · rintro ⟨hb, rfl⟩
    exact ⟨_, writeDm_ok_iff.2 ⟨hb, rfl⟩, rfl⟩

theorem execLdDmInd_next_iff {r : DReg} {i j : Fin 8} {s t : State} :
    execLdDmInd r i j s = .next t ↔ dmOperandOk i j = true ∧ s.backed .dm (s.outAddr i) = true ∧ ∃ v, s.nextI i j = .ok v ∧
      t = ((s.setX r (s.dmWord (s.cell .dm (s.outAddr i)))).setI i v).advance := by
  unfold execLdDmInd
  rw [finish_next_iff, bind_ok_iff]
  constructor
  · rintro ⟨⟨out, next⟩, hg, h⟩
    obtain ⟨hok, hn, rfl⟩ := agen_ok_iff.1 hg
    obtain ⟨w, hw, ht⟩ := bind_ok_iff.1 h
    obtain ⟨hb, rfl⟩ := readDm_ok_iff.1 hw
    exact ⟨hok, hb, next, hn, by cases ht; rfl⟩
  · rintro ⟨hok, hb, v, hn, rfl⟩
    exact ⟨⟨s.outAddr i, v⟩, agen_ok_iff.2 ⟨hok, hn, rfl⟩, bind_ok_iff.2 ⟨_, readDm_ok_iff.2 ⟨hb, rfl⟩, rfl⟩⟩

theorem execStDmInd_next_iff {r : DReg} {i j : Fin 8} {s t : State} :
    execStDmInd i j r s = .next t ↔ dmOperandOk i j = true ∧ s.backed .dm (s.outAddr i) = true ∧ ∃ v, s.nextI i j = .ok v ∧
      t = ((s.setDmWord (s.cell .dm (s.outAddr i)) (s.x r)).setI i v).advance := by
  unfold execStDmInd
  rw [finish_next_iff, bind_ok_iff]
  constructor
  · rintro ⟨⟨out, next⟩, hg, h⟩
    obtain ⟨hok, hn, rfl⟩ := agen_ok_iff.1 hg
    obtain ⟨w, hw, ht⟩ := bind_ok_iff.1 h
    obtain ⟨hb, rfl⟩ := writeDm_ok_iff.1 hw
    exact ⟨hok, hb, next, hn, by cases ht; rfl⟩
  · rintro ⟨hok, hb, v, hn, rfl⟩
    exact ⟨⟨s.outAddr i, v⟩, agen_ok_iff.2 ⟨hok, hn, rfl⟩, bind_ok_iff.2 ⟨_, writeDm_ok_iff.2 ⟨hb, rfl⟩, rfl⟩⟩

theorem execLdPmInd_next_iff {r : DReg} {i j : Fin 8} {s t : State} :
    execLdPmInd r i j s = .next t ↔ pmOperandOk i j = true ∧ s.backed .pm (s.i i) = true ∧ ∃ v, s.nextI i j = .ok v ∧
      t = (((s.setX r (upperOf (s.pmWord (s.cell .pm (s.i i))))).setPx
        (lowerOf (s.pmWord (s.cell .pm (s.i i))))).setI i v).advance := by
  unfold execLdPmInd
  rw [finish_next_iff, bind_ok_iff]
  constructor
  · rintro ⟨⟨out, next⟩, hg, h⟩
    obtain ⟨hok, hn, rfl⟩ := agenPm_ok_iff.1 hg
    obtain ⟨w, hw, ht⟩ := bind_ok_iff.1 h
    obtain ⟨hb, rfl⟩ := readPm_ok_iff.1 hw
    exact ⟨hok, hb, next, hn, by cases ht; rfl⟩
  · rintro ⟨hok, hb, v, hn, rfl⟩
    exact ⟨⟨s.i i, v⟩, agenPm_ok_iff.2 ⟨hok, hn, rfl⟩, bind_ok_iff.2 ⟨_, readPm_ok_iff.2 ⟨hb, rfl⟩, rfl⟩⟩

theorem execStPmInd_next_iff {r : DReg} {i j : Fin 8} {s t : State} :
    execStPmInd i j r s = .next t ↔ pmOperandOk i j = true ∧ s.backed .pm (s.i i) = true ∧ ∃ v, s.nextI i j = .ok v ∧
      t = (((s.setPmWord (s.cell .pm (s.i i)) (joinWord (s.x r) s.px)).markWritten
        (s.cell .pm (s.i i))).setI i v).advance := by
  unfold execStPmInd
  rw [finish_next_iff, bind_ok_iff]
  constructor
  · rintro ⟨⟨out, next⟩, hg, h⟩
    obtain ⟨hok, hn, rfl⟩ := agenPm_ok_iff.1 hg
    obtain ⟨w, hw, ht⟩ := bind_ok_iff.1 h
    obtain ⟨hb, rfl⟩ := writePm_ok_iff.1 hw
    exact ⟨hok, hb, next, hn, by cases ht; rfl⟩
  · rintro ⟨hok, hb, v, hn, rfl⟩
    exact ⟨⟨s.i i, v⟩, agenPm_ok_iff.2 ⟨hok, hn, rfl⟩, bind_ok_iff.2 ⟨_, writePm_ok_iff.2 ⟨hb, rfl⟩, rfl⟩⟩

theorem execMovToPx_next_iff {src : MoveSrc} {s t : State} :
    execMovToPx src s = .next t ↔ t = (s.setPx (pxOfBus (s.moveValue src))).advance := by
  simp [execMovToPx, finish, eq_comm]

theorem execMovFromPx_next_iff {r : DReg} {s t : State} :
    execMovFromPx r s = .next t ↔ t = (s.setX r (busOfPx s.px)).advance := by
  simp [execMovFromPx, finish, eq_comm]

theorem execEnaBitRev_next_iff {s t : State} :
    execEnaBitRev s = .next t ↔ t = (s.setBitRev true).advance := by
  simp [execEnaBitRev, finish, eq_comm]

theorem execDisBitRev_next_iff {s t : State} :
    execDisBitRev s = .next t ↔ t = (s.setBitRev false).advance := by
  simp [execDisBitRev, finish, eq_comm]

theorem execMovToMstat_next_iff {r : DReg} {s t : State} :
    execMovToMstat r s = .next t ↔ t = (s.setMstat (mstatOfWord (s.x r))).advance := by
  simp [execMovToMstat, finish, eq_comm]

theorem execJumpInd_stops (i : Fin 8) (c : BitVec 4) (s : State) :
    execJumpInd i c s = .refused .registerIndirectJump := rfl

theorem execCallInd_stops (i : Fin 8) (c : BitVec 4) (s : State) :
    execCallInd i c s = .refused .registerIndirectCall := rfl

/-- A word stands for a statement exactly when it decodes to one whose data registers are members of `DREG`. -/
theorem statementOf_ok_iff {s : State} {w : PmWord} {i : Instr} :
    s.statementOf w = .ok i ↔ decode w = .ok i ∧ s.admits i = true := by
  unfold State.statementOf
  cases decode w with
  | error why => simp
  | ok k =>
    show (if s.admits k = true then Except.ok k else Except.error Reject.outsideDreg) = .ok i ↔ _
    split
    · constructor
      · rintro ⟨⟩; exact ⟨rfl, ‹_›⟩
      · rintro ⟨⟨⟩, _⟩; rfl
    · constructor
      · rintro ⟨⟩
      · rintro ⟨⟨⟩, h⟩; contradiction

/-- A step that answers a next state fetched a word, decoded it to an admitted statement and executed it. -/
theorem step_next_iff {s t : State} :
    step s = .next t ↔ ∃ w i, fetch s = .ok w ∧ s.statementOf w = .ok i ∧ exec i s = .next t := by
  unfold step
  cases hf : fetch s with
  | error e => cases e <;> simp
  | ok w =>
    cases hd : s.statementOf w with
    | error why => simp [hd]
    | ok i => simp [hd]

end Sys2Proof.Machine
end

