-- ==== Sys2Proof/Laws/PerInstr.lean ====
section
/-! SUPPORT. A statement about every instruction as syntax: its encoding fits in one 24-bit program memory word, so
`encode` drops no bit of it. -/

namespace Sys2Proof.Laws.EncodingFits

/-- The word of the instruction fits in 24 bits. -/
def Statement (i : Instr) : Prop :=
  encodeNat i < 2 ^ 24

theorem dreg_code_lt (r : DReg) : r.code < 16 := by
  cases r <;> decide

theorem dag_code_lt (x : DagReg) : x.code < 16 := by
  obtain ⟨f, k⟩ := x
  have : k.val % 4 < 4 := Nat.mod_lt _ (by decide)
  cases f <;> simp [DagReg.code, DagFile.code] <;> omega

theorem dagOf_lt (k : Fin 8) : dagOf k < 3 := by
  unfold dagOf; split <;> decide

theorem coded_code_lt (x : CodedReg) : x.code < 16 := by
  cases x with
  | dreg r => exact dreg_code_lt r
  | dag x => exact dag_code_lt x
  | px => decide
  | mstat => decide

theorem coded_group_lt (x : CodedReg) : x.group < 4 := by
  cases x with
  | dreg r => exact (by decide : (0 : Nat) < 4)
  | dag x => exact Nat.lt_succ_of_lt (dagOf_lt x.idx)
  | px => exact (by decide : (3 : Nat) < 4)
  | mstat => exact (by decide : (3 : Nat) < 4)

theorem encodeMove_lt (d s : CodedReg) : encodeMove d s < 2 ^ 24 := by
  have := coded_code_lt d
  have := coded_code_lt s
  have := coded_group_lt d
  have := coded_group_lt s
  unfold encodeMove
  omega

theorem encodeLong_lt {n : Nat} (hn : n < 16) (x : CodedReg) (a : Addr) : encodeLong n x a < 2 ^ 24 := by
  have := coded_code_lt x
  have := coded_group_lt x
  have := a.isLt
  unfold encodeLong
  omega

theorem encodeIndirect_lt {top : Nat} (h : top < 2 ^ 16) (r : DReg) (i j : Fin 8) :
    encodeIndirect top r i j < 2 ^ 24 := by
  have := dreg_code_lt r
  unfold encodeIndirect
  omega

theorem encodeTransfer_lt {t : Nat} (h : t < 4) (i : Fin 8) (c : BitVec 4) : encodeTransfer t i c < 2 ^ 24 := by
  have := c.isLt
  unfold encodeTransfer
  omega

theorem ldiDag (x : DagReg) (imm : Addr) : Statement (.ldiDag x imm) := encodeLong_lt (by decide) _ _
theorem movToDag (x : DagReg) (src : MoveSrc) : Statement (.movToDag x src) := encodeMove_lt _ _
theorem movFromDag (r : DReg) (x : DagReg) : Statement (.movFromDag r x) := encodeMove_lt _ _
theorem ldDmDirect (t : DirectReg) (addr : Addr) : Statement (.ldDmDirect t addr) := encodeLong_lt (by decide) _ _
theorem stDmDirect (addr : Addr) (src : DirectReg) : Statement (.stDmDirect addr src) :=
  encodeLong_lt (by decide) _ _
theorem ldDmInd (r : DReg) (i j : Fin 8) : Statement (.ldDmInd r i j) :=
  encodeIndirect_lt (by have := dagOf_lt i; omega) _ _ _
theorem stDmInd (i j : Fin 8) (r : DReg) : Statement (.stDmInd i j r) :=
  encodeIndirect_lt (by have := dagOf_lt i; omega) _ _ _
theorem ldPmInd (r : DReg) (i j : Fin 8) : Statement (.ldPmInd r i j) := encodeIndirect_lt (by decide) _ _ _
theorem stPmInd (i j : Fin 8) (r : DReg) : Statement (.stPmInd i j r) := encodeIndirect_lt (by decide) _ _ _
theorem movToPx (src : MoveSrc) : Statement (.movToPx src) := encodeMove_lt _ _
theorem movFromPx (r : DReg) : Statement (.movFromPx r) := encodeMove_lt _ _
theorem enaBitRev : Statement .enaBitRev := by unfold Statement; decide
theorem disBitRev : Statement .disBitRev := by unfold Statement; decide
theorem movToMstat (r : DReg) : Statement (.movToMstat r) := encodeMove_lt _ _
theorem jumpInd (i : Fin 8) (c : BitVec 4) : Statement (.jumpInd i c) := encodeTransfer_lt (by decide) _ _
theorem callInd (i : Fin 8) (c : BitVec 4) : Statement (.callInd i c) := encodeTransfer_lt (by decide) _ _

end Sys2Proof.Laws.EncodingFits
end

