-- ==== Sys2Proof/Tests/Slice0.lean ====
section
/-! SUPPORT. The model's own tests, from the worked examples and vectors of spec/95_test_vectors.md, and for every
obligation with hypotheses a witness: states and operands that meet all of them together. -/

namespace Sys2Proof.Tests

open Sys2Proof
open Sys2Proof.Machine

/-! ## Helpers -/

/-- The next state, if the outcome is one. -/
def after : Host.Outcome State Fault Refusal → Option State
  | .next t => some t
  | .fault _ => none
  | .refused _ => none

/-- Why the machine refused, if it did. -/
def refusal? : Host.Outcome State Fault Refusal → Option Refusal
  | .next _ => none
  | .fault _ => none
  | .refused r => some r

/-- Why the machine faulted, if it did. -/
def fault? : Host.Outcome State Fault Refusal → Option Fault
  | .next _ => none
  | .fault f => some f
  | .refused _ => none

/-- The instruction answers a next state. -/
def completes (i : Instr) (s : State) : Bool :=
  (after (exec i s)).isSome

theorem after_isSome_iff (o : Host.Outcome State Fault Refusal) : (after o).isSome = true ↔ ∃ t, o = .next t := by
  cases o <;> simp [after]

theorem completes_iff (i : Instr) (s : State) : completes i s = true ↔ ∃ t, exec i s = .next t :=
  after_isSome_iff _

/-- What a test looks at after one instruction. -/
def see {α : Type} (i : Instr) (s : State) (f : State → α) : Option α :=
  (after (exec i s)).map f

/-- The reset state with `I`, `M`, `L` contents for one indirect operand. -/
def dagState (i j : Fin 8) (iv mv lv : Addr) : State :=
  ((State.reset.setI i iv).setM j mv).setL i lv

/-- The reset state with the bit-reverse mode on. -/
def reversed (s : State) : State :=
  s.setBitRev true

/-- The reset state on another platform. -/
def onPlatform (f : Platform → Platform) : State :=
  { State.reset with platform := f State.reset.platform }

/-- A state whose data memory word at address 0x0100 and program memory word at address 0 have no storage. -/
def holed : State :=
  onPlatform fun p => { p with unbacked := [⟨.dm, ⟨0⟩, 0x100⟩, ⟨.pm, ⟨0⟩, 0⟩] }

/-- A platform on which address 0x0100 of each space lies in an overlay region: selection 1 reaches a cell of its own,
selection 2 the cell that selection 0 reaches. -/
def overlaid : State :=
  onPlatform fun p => { p with routes := [⟨⟨.dm, ⟨1⟩, 0x100⟩, 0x4000⟩, ⟨⟨.dm, ⟨2⟩, 0x100⟩, 0x100⟩,
    ⟨⟨.pm, ⟨1⟩, 0x100⟩, 0x4000⟩, ⟨⟨.pm, ⟨2⟩, 0x100⟩, 0x100⟩] }

/-- A platform with another `BIT_REV_POS` and no bank select (decision D25), and one whose `DREG` is `AX0` and `MX0`
(decision D24). -/
def otherMode : State :=
  onPlatform fun p => { p with bitRevPos := 6, bankPos := none }

def twoDregs : State :=
  onPlatform fun p => { p with moreDreg := [] }

/-- The addresses put out by `n` successive accesses through one operand (95_test_vectors.md A5, A6, B3). -/
def addresses (m l : Addr) : Nat → Addr → List Nat
  | 0, _ => []
  | n + 1, i =>
    match postModify i m l with
    | .ok v => i.toNat :: addresses m l n v
    | .error _ => [i.toNat]

/-! ## Well-formedness: a term that each check refuses (R55) -/

theorem test_illFormed_load_other_dag : (Instr.ldDmInd .ax0 0 4).wellFormed = false := by decide
theorem test_illFormed_store_other_dag : (Instr.stDmInd 4 3 .ax0).wellFormed = false := by decide
theorem test_illFormed_pm_load_dag1 : (Instr.ldPmInd .ax0 0 0).wellFormed = false := by decide
theorem test_illFormed_pm_load_mixed : (Instr.ldPmInd .ax0 4 3).wellFormed = false := by decide
theorem test_illFormed_pm_store_dag1 : (Instr.stPmInd 3 4 .ax0).wellFormed = false := by decide
theorem test_illFormed_jump_dag1 : (Instr.jumpInd 3 15).wellFormed = false := by decide
theorem test_illFormed_call_dag1 : (Instr.callInd 0 15).wellFormed = false := by decide
theorem test_wellFormed_indirect :
    (Instr.ldDmInd .ax0 0 3).wellFormed && (Instr.stDmInd 7 4 .ax0).wellFormed &&
      (Instr.ldPmInd .ax0 4 7).wellFormed && (Instr.stPmInd 7 4 .ax0).wellFormed = true := by decide

/-! ## Decoding: each word is written out from the pattern of its row in 30_encoding.md section 7; those that also stand
in 95_test_vectors.md part C are named with their statement -/

/-- C1.1 `I3=DM(0x0100);`: `1000 01 00000100000000 0011` -/
theorem test_decode_ldDmDirect : decode 0b100001000001000000000011 = .ok (.ldDmDirect (.dag ⟨.index, 3⟩) 0x100) := by
  decide
/-- `SR1=DM(0x3FFF);`: `1000 00 11111111111111 1111` -/
theorem test_decode_ldDmDirect_dreg : decode 0b100000111111111111111111 = .ok (.ldDmDirect (.dreg .sr1) 0x3FFF) := by
  decide
/-- C1.9 `DM(0x0102)=M1;`: `1001 01 00000100000010 0101` -/
theorem test_decode_stDmDirect : decode 0b100101000001000000100101 = .ok (.stDmDirect 0x102 (.dag ⟨.modify, 1⟩)) := by
  decide
/-- C2.5 `M4=-1;`: `0011 10 11111111111111 0100` -/
theorem test_decode_ldiDag : decode 0b001110111111111111110100 = .ok (.ldiDag ⟨.modify, 4⟩ 0x3FFF) := by decide
/-- `L7=1;`: `0011 10 00000000000001 1011` -/
theorem test_decode_ldiDag_length : decode 0b001110000000000000011011 = .ok (.ldiDag ⟨.length, 7⟩ 1) := by decide
/-- C1.6 `MX0=DM(I3,M2);`: `011 0 0 0 00000 00 000 0010 11 10` -/
theorem test_decode_ldDmInd : decode 0b011000000000000000101110 = .ok (.ldDmInd .mx0 3 2) := by decide
/-- C2.8 `DM(I4,M4)=AX0;`: `011 1 1 0 00000 00 000 0000 00 00` -/
theorem test_decode_stDmInd : decode 0b011110000000000000000000 = .ok (.stDmInd 4 4 .ax0) := by decide
/-- `MR0=PM(I6,M7);`: `0101 0 0 00000 00 000 1011 10 11` -/
theorem test_decode_ldPmInd : decode 0b010100000000000010111011 = .ok (.ldPmInd .mr0 6 7) := by decide
/-- C3.8 `PM(I5,M5)=AX0;`: `0101 1 0 00000 00 000 0000 01 01` -/
theorem test_decode_stPmInd : decode 0b010110000000000000000101 = .ok (.stPmInd 5 5 .ax0) := by decide
/-- `I2=M6;`: `0000 1101 0000 01 10 0010 0110` -/
theorem test_decode_movToDag_dag :
    decode 0b000011010000011000100110 = .ok (.movToDag ⟨.index, 2⟩ (.dag ⟨.modify, 6⟩)) := by decide
/-- C3.13 `I6=PX;`: `0000 1101 0000 10 11 0010 0111` -/
theorem test_decode_movToDag_px : decode 0b000011010000101100100111 = .ok (.movToDag ⟨.index, 6⟩ .px) := by decide
/-- C1.10 `AX0=M2;`: `0000 1101 0000 00 01 0000 0110` -/
theorem test_decode_movFromDag : decode 0b000011010000000100000110 = .ok (.movFromDag .ax0 ⟨.modify, 2⟩) := by decide
/-- C3.11 `PX=AX0;`: `0000 1101 0000 11 00 0111 0000` -/
theorem test_decode_movToPx : decode 0b000011010000110001110000 = .ok (.movToPx (.dreg .ax0)) := by decide
/-- C3.10 `MX0=PX;`: `0000 1101 0000 00 11 0010 0111` -/
theorem test_decode_movFromPx : decode 0b000011010000001100100111 = .ok (.movFromPx .mx0) := by decide
/-- C4.7 `ENA BIT_REV;` and C4.24 `DIS BIT_REV;`: `0000 1100 00 00 00 00 vv 00 00 00` -/
theorem test_decode_mode :
    decode 0b000011000000000011000000 = .ok .enaBitRev ∧ decode 0b000011000000000010000000 = .ok .disBitRev := by decide
/-- `MSTAT=AR;`: `0000 1101 0000 11 00 0001 1010` -/
theorem test_decode_movToMstat : decode 0b000011010000110000011010 = .ok (.movToMstat .ar) := by decide
/-- `JUMP (I4);` with condition 1111 and `CALL (I7);`: `0000 1011 0000 0000 ii 0 t cccc` -/
theorem test_decode_transfer :
    decode 0b000010110000000000001111 = .ok (.jumpInd 4 15) ∧
      decode 0b000010110000000011011111 = .ok (.callInd 7 15) := by decide

/-- `SE` and `MR2` are 8-bit registers, no members of `DREG` (92_eei_decisions.md D24). -/
theorem test_reject_narrow :
    decode 0x60009D = .error .narrowDataRegister ∧ decode 0x80100D = .error .narrowDataRegister := by decide
/-- `AX0=AX1;` `MSTAT=I0;` `AX0=MSTAT;` `AX0=7;` are no admitted forms (R54). -/
theorem test_reject_forms :
    decode 0x0D0001 = .error .formNotAdmitted ∧ decode 0x0D0D10 = .error .formNotAdmitted ∧
      decode 0x0D0301 = .error .formNotAdmitted ∧ decode 0x300070 = .error .formNotAdmitted := by decide
/-- `ASTAT` is out of scope; codes 1100 of a DAG group name nothing; a compute field or a dual access has no pattern. -/
theorem test_reject_others :
    decode 0x0D0C00 = .error .registerOutOfScope ∧ decode 0x34000C = .error .noSuchRegister ∧
      decode 0x600100 = .error .noPattern ∧ decode 0xC00000 = .error .noPattern ∧
      decode 0x000000 = .error .noPattern ∧ decode 0x0C00F0 = .error .noPattern := by decide

/-- The encoder gives the words of part C. -/
theorem test_encode_part_c :
    encode (.ldDmDirect (.dag ⟨.index, 3⟩) 0x100) = 0x841003 ∧ encode (.ldiDag ⟨.length, 4⟩ 0) = 0x380008 ∧
      encode (.stDmInd 4 4 .ax0) = 0x780000 ∧ encode (.stPmInd 5 5 .ax0) = 0x580005 ∧
      encode (.movToDag ⟨.index, 6⟩ .px) = 0x0D0B27 ∧ encode (.ldDmInd .ax0 0 1) = 0x600001 := by decide

/-- The host's view of the decoder. -/
theorem test_decodeTableWord :
    decodeTableWord 24 0x340005 = some (.ldiDag ⟨.modify, 1⟩ 0) ∧ decodeTableWord 24 0x0D0001 = none := by decide

/-! ## DAG register access (95_test_vectors.md B1) -/

/-- `M4=-1;` and `M4=0x3FFF;` leave the same content; `M5=-8192;` leaves 0x2000. -/
theorem test_ldiDag_negative :
    (immOfInt (-1)).bind (fun v => see (.ldiDag ⟨.modify, 4⟩ v) State.reset (·.m 4)) = some 0x3FFF ∧
      (immOfInt (-8192)).bind (fun v => see (.ldiDag ⟨.modify, 5⟩ v) State.reset (·.m 5)) = some 0x2000 := by decide
/-- `I0=16384;` and `M0=-8193;` are refused: out of range. -/
theorem test_ldiDag_range : immOfInt 16384 = none ∧ immOfInt (-8193) = none ∧ immOfInt 16383 = some 0x3FFF := by decide
/-- `AX0 = 0xC123`, `I2=AX0;` leaves 0x0123; `AX0 = 0x4005`, `L1=AX0;` leaves 5. -/
theorem test_movToDag_drops_upper_bits :
    see (.movToDag ⟨.index, 2⟩ (.dreg .ax0)) (State.reset.setX .ax0 0xC123) (·.i 2) = some 0x0123 ∧
      see (.movToDag ⟨.length, 1⟩ (.dreg .ax0)) (State.reset.setX .ax0 0x4005) (·.l 1) = some 5 := by decide
/-- `M0 = 0x2ABC`, `I1=M0;` leaves 0x2ABC; `PX = 0xCD`, `I6=PX;` leaves 0x00CD. -/
theorem test_movToDag_sources :
    see (.movToDag ⟨.index, 1⟩ (.dag ⟨.modify, 0⟩)) (State.reset.setM 0 0x2ABC) (·.i 1) = some 0x2ABC ∧
      see (.movToDag ⟨.index, 6⟩ .px) (State.reset.setPx 0xCD) (·.i 6) = some 0x00CD := by decide
/-- M registers are sign-extended: 0x3FFE reads 0xFFFE, 0x2000 reads 0xE000, 0x1FFF reads 0x1FFF. -/
theorem test_movFromDag_signed :
    see (.movFromDag .ax0 ⟨.modify, 1⟩) (State.reset.setM 1 0x3FFE) (·.x .ax0) = some 0xFFFE ∧
      see (.movFromDag .ax0 ⟨.modify, 1⟩) (State.reset.setM 1 0x2000) (·.x .ax0) = some 0xE000 ∧
      see (.movFromDag .ax0 ⟨.modify, 1⟩) (State.reset.setM 1 0x1FFF) (·.x .ax0) = some 0x1FFF := by decide
/-- I and L registers are zero-padded, and the mode does not reverse a register read. -/
theorem test_movFromDag_unsigned :
    see (.movFromDag .ax0 ⟨.index, 0⟩) (State.reset.setI 0 0x3FFF) (·.x .ax0) = some 0x3FFF ∧
      see (.movFromDag .ax0 ⟨.length, 2⟩) (State.reset.setL 2 0x2000) (·.x .ax0) = some 0x2000 ∧
      see (.movFromDag .ax0 ⟨.index, 0⟩) (reversed (State.reset.setI 0 1)) (·.x .ax0) = some 1 := by decide
/-- `DM[0x0100] = 0xF800`: `I3=DM(0x0100);` leaves 0x3800, `AX0=DM(0x0100);` leaves 0xF800. -/
theorem test_ldDmDirect_word :
    see (.ldDmDirect (.dag ⟨.index, 3⟩) 0x100) (State.reset.setDmWord 0x100 0xF800) (·.i 3) = some 0x3800 ∧
      see (.ldDmDirect (.dreg .ax0) 0x100) (State.reset.setDmWord 0x100 0xF800) (·.x .ax0) = some 0xF800 := by decide
/-- A direct address is never bit-reversed. -/
theorem test_ldDmDirect_not_reversed :
    see (.ldDmDirect (.dreg .ax0) 1) (reversed ((State.reset.setDmWord 1 7).setDmWord 0x2000 9)) (·.x .ax0) = some 7 := by
  decide
/-- `M1 = 0x3FFF`, `DM(0x0102)=M1;` stores 0xFFFF; `I0 = 6`, `DM(0x0100)=I0;` stores 6. -/
theorem test_stDmDirect_word :
    see (.stDmDirect 0x102 (.dag ⟨.modify, 1⟩)) (State.reset.setM 1 0x3FFF) (·.dmWord 0x102) = some 0xFFFF ∧
      see (.stDmDirect 0x100 (.dag ⟨.index, 0⟩)) (State.reset.setI 0 6) (·.dmWord 0x100) = some 6 := by decide

/-! ## Indirect addressing (B2, A5, A6, B3) -/

/-- The rows of B2: wraps past the top and the bottom, the extreme modify values. -/
theorem test_linear_update :
    postModify 0x3800 0x3FFF 0 = .ok 0x37FF ∧ postModify 0x3FFF 1 0 = .ok 0 ∧ postModify 0 0x3FFF 0 = .ok 0x3FFF ∧
      postModify 0x2000 0x2000 0 = .ok 0 ∧ postModify 0x1FFF 0x1FFF 0 = .ok 0x3FFE := by decide
/-- The source's sequences, examples 1 and 2 of Circular Buffer Operation. -/
theorem test_circular_examples :
    addresses 1 3 8 5 = [5, 6, 4, 5, 6, 4, 5, 6] ∧ addresses 0x3FFF 3 9 5 = [5, 4, 6, 5, 4, 6, 5, 4, 6] ∧
      addresses 3 5 7 9 = [9, 12, 10, 8, 11, 9, 12] := by decide
/-- B3: a step of -6 in a buffer of 7, of 7 in a buffer of 8, the end of a buffer of 128, base 0. -/
theorem test_circular_corners :
    addresses 0x3FFA 7 4 8 = [8, 9, 10, 11] ∧ addresses 7 8 4 16 = [16, 23, 22, 21] ∧
      addresses 1 128 3 0x387E = [0x387E, 0x387F, 0x3800] ∧ addresses 0x3FFF 3 4 0 = [0, 2, 1, 0] := by decide
/-- B3: `n(L)`. -/
theorem test_buffer_exponent :
    [1, 2, 3, 5, 8, 9, 128, 129, 8192, 8193, 16383].map bufferExponent = [0, 1, 2, 3, 3, 4, 7, 8, 13, 14, 14] := by decide
/-- B3's refusals: I = 7 in a buffer of 7, I = 15; `|M| = L`, `|M| > L`, M = -8192 with L = 0x2000 and not with 0x2001. -/
theorem test_buffer_conditions :
    inBuffer 7 7 = false ∧ inBuffer 15 7 = false ∧ modifyBelowLength 3 3 = false ∧ modifyBelowLength 1 1 = false ∧
      modifyBelowLength 0x2000 0x2000 = false ∧ modifyBelowLength 0x2000 0x2001 = true := by decide
/-- The refused rows of R87's table: I = 7 with L = 7 and any M (0 too); 5 with M = L = 3; 0x1234 with M = L = 1. -/
theorem test_update_refused :
    modNext 7 1 7 = .error (.refuse .indexOutsideBuffer) ∧ modNext 7 0 7 = .error (.refuse .indexOutsideBuffer) ∧
      modNext 5 3 3 = .error (.refuse .modifyNotBelowLength) ∧
      modNext 0x1234 1 1 = .error (.refuse .modifyNotBelowLength) := by decide
/-- `I4 = 0x3FFF`, `M5 = 1`: `MX0=DM(I4,M5);` reads the last word and wraps I4. -/
theorem test_ldDmInd_dag2 :
    see (.ldDmInd .mx0 4 5) ((dagState 4 5 0x3FFF 1 0).setDmWord 0x3FFF 0xAA) (fun t => (t.x .mx0, t.i 4)) =
      some (0xAA, 0) := by decide
/-- B4: the reversed address, with the index stored back in normal order. -/
theorem test_ldDmInd_reversed :
    see (.ldDmInd .ax0 0 0) (reversed ((dagState 0 0 1 1 0).setDmWord 0x2000 9)) (fun t => (t.x .ax0, t.i 0)) =
      some (9, 2) := by decide
/-- `I1 = 0x0200`, `AX0 = 0xBEEF`: `DM(I1,M1)=AX0;`. -/
theorem test_stDmInd_word :
    see (.stDmInd 1 1 .ax0) ((dagState 1 1 0x200 1 0).setX .ax0 0xBEEF) (fun t => (t.dmWord 0x200, t.i 1)) =
      some (0xBEEF, 0x201) := by decide
/-- B4: a reversed store; `DM(I2,M3)=AX0;` with `I2 = 0x3800` stores to 7. -/
theorem test_stDmInd_reversed :
    see (.stDmInd 2 3 .ax0) (reversed ((dagState 2 3 0x3800 0 0).setX .ax0 0x5555)) (·.dmWord 7) = some 0x5555 := by decide

/-! ## Bit reversal (B4) -/

theorem test_bitRev14 :
    [0, 1, 2, 7, 0x40, 0x80, 0x1234, 0x2000, 0x2AAA, 0x3800, 0x3FFF].map (fun a => (bitRev14 a).toNat) =
      [0, 0x2000, 0x1000, 0x3800, 0x80, 0x40, 0x0B12, 1, 0x1555, 7, 0x3FFF] := by decide
/-- `N = 3`, `M = 0x0800`: the output addresses 0x200, 0x204, 0x202, 0x206 of B4's second row. -/
theorem test_three_bit_reversal :
    (addresses 0x800 0 4 0x10).map (fun a => (bitRev14 (BitVec.ofNat 14 a)).toNat) = [0x200, 0x204, 0x202, 0x206] := by
  decide

/-! ## Bus exchange (B5) -/

/-- `PM[0x0100] = 0x123456`: `AX0=PM(I4,M4);`. -/
theorem test_ldPmInd_splits :
    see (.ldPmInd .ax0 4 4) ((dagState 4 4 0x100 1 0).setPmWord 0x100 0x123456) (fun t => (t.x .ax0, t.px, t.i 4)) =
      some (0x1234, 0x56, 0x101) := by decide
/-- Circular addressing applies to program memory, and the mode does not reverse DAG2. -/
theorem test_ldPmInd_circular :
    see (.ldPmInd .ax0 4 4) (reversed ((dagState 4 4 9 3 5).setPmWord 9 0x000102)) (fun t => (t.x .ax0, t.px, t.i 4)) =
      some (1, 2, 12) := by decide
/-- `AX0 = 0xABCD`, `PX = 0xEF`: `PM(I4,M4)=AX0;`. -/
theorem test_stPmInd_joins :
    see (.stPmInd 4 4 .ax0) (((dagState 4 4 0x100 1 0).setX .ax0 0xABCD).setPx 0xEF)
      (fun t => (t.pmWord 0x100, t.px, t.i 4)) = some (0xABCDEF, 0xEF, 0x101) := by decide
/-- `AX0 = 0x12EF`, `PX=AX0;` leaves 0xEF; `M4 = 0x3FFF`, `PX=M4;` leaves 0xFF. -/
theorem test_movToPx :
    see (.movToPx (.dreg .ax0)) (State.reset.setX .ax0 0x12EF) (·.px) = some 0xEF ∧
      see (.movToPx (.dag ⟨.modify, 4⟩)) (State.reset.setM 4 0x3FFF) (·.px) = some 0xFF := by decide
/-- `PX = 0xFF`, `AX0=PX;` leaves 0x00FF: never sign-extended. -/
theorem test_movFromPx : see (.movFromPx .ax0) (State.reset.setPx 0xFF) (·.x .ax0) = some 0x00FF := by decide

/-! ## Mode and control (B4, B6) -/

theorem test_enaBitRev : see .enaBitRev State.reset (·.bitRev) = some true := by decide
theorem test_disBitRev : see .disBitRev (reversed State.reset) (·.bitRev) = some false := by decide
/-- The bit-reverse bit is bit 1 of what is moved (log entry 4), and bit 0 selects the other bank (log entry 5). -/
theorem test_movToMstat :
    see (.movToMstat .ax0) (State.reset.setX .ax0 2) (fun t => (t.bitRev, t.x .ax0)) = some (true, 2) ∧
      see (.movToMstat .ax0) (State.reset.setX .ax0 1) (fun t => (t.bitRev, t.x .ax0)) = some (false, 0) := by decide
/-- With `BIT_REV_POS = 6` and no bank select the mode is bit 6, and a write of bit 0 leaves AX0 in sight. -/
theorem test_other_bit_rev_pos :
    see .enaBitRev otherMode (fun t => (t.bitRev, t.mstat)) = some (true, 0x40) ∧
      see (.movToMstat .ax0) (otherMode.setX .ax0 3) (fun t => (t.bitRev, t.x .ax0)) = some (false, 3) := by decide
theorem test_jumpInd : refusal? (exec (.jumpInd 4 15) State.reset) = some .registerIndirectJump := by decide
theorem test_callInd : refusal? (exec (.callInd 4 15) State.reset) = some .registerIndirectCall := by decide

/-! ## The step -/

/-- `M1=5;` placed at the pc runs and the pc moves on. -/
theorem test_step_runs :
    (after (step (State.reset.withFetchWord 24 0x340055))).map (fun t => (t.m 1, t.pc)) = some (5, 1) := by decide
/-- An instruction of each mode of access runs as the first after reset, whatever memory holds. -/
theorem test_step_runs_access :
    ([0x800000, 0x900000, 0x600000, 0x780000, 0x500000, 0x580000].map fun w =>
      (after (step (State.reset.withFetchWord 24 w))).isSome) = [true, true, true, true, true, true] := by decide
/-- From reset with nothing loaded there is no statement at the pc (log entry 12). -/
theorem test_step_from_reset : refusal? (step State.reset) = some .noStatement := by decide
/-- `AX1=PX;` is no admitted statement where `DREG` lacks AX1, and `AX0=PX;` is one (R54, decision D24). -/
theorem test_step_outside_dreg :
    refusal? (step (twoDregs.withFetchWord 24 0x0D0317)) = some (.notAdmitted .outsideDreg) ∧
      (after (step (twoDregs.withFetchWord 24 0x0D0307))).isSome = true := by decide
/-- A word that the run has written is not fetched (R43). -/
theorem test_step_written_word :
    refusal? (step ((State.reset.setPmWord 0 0x340055).markWritten 0)) = some .fetchOfWrittenWord := by decide
/-- A fetch where there is no storage has no step (R35). -/
theorem test_step_unbacked : fault? (step holed) = some (.unbacked ⟨.pm, ⟨0⟩, 0⟩) := by decide
/-- `withFetchWord` works at such a place as well: it loads the word. -/
theorem test_withFetchWord_backs : (after (step (holed.withFetchWord 24 0x340055))).isSome = true := by decide

/-! ## The program text (30_encoding.md) -/

/-- The two directives of A10 with their uses: `L0=length (coefficients);` and `I0=coefficients;`. -/
def coefficients : Symbol := ⟨⟨"coefficients", 128, true, []⟩, 0x3800⟩

theorem test_assemble :
    assembleLdi [coefficients] ⟨.length, 0⟩ (.length "coefficients") = some (.ldiDag ⟨.length, 0⟩ 128) ∧
      assembleLdi [coefficients] ⟨.index, 0⟩ (.address "coefficients") = some (.ldiDag ⟨.index, 0⟩ 0x3800) ∧
      assembleLdDirect [coefficients] (.dreg .mx0) (.address "coefficients") = some (.ldDmDirect (.dreg .mx0) 0x3800) ∧
      assembleLdDirect [] (.dreg .mx0) (.number (-1)) = none := by decide
/-- A circular buffer of 128 words may start at 0x3800 and not at 0x3801; a buffer of 3 at 4 and not at 6 (R79). -/
theorem test_placement :
    coefficients.placed = true ∧ Symbol.placed { coefficients with base := 0x3801 } = false ∧
      Symbol.placed ⟨⟨"b", 3, true, []⟩, 4⟩ = true ∧ Symbol.placed ⟨⟨"b", 3, true, []⟩, 6⟩ = false := by decide
theorem test_text :
    statementText (.ldDmInd .mx0 3 2) = "MX0=DM(I3,M2);" ∧ statementText (.stPmInd 4 4 .ax0) = "PM(I4,M4)=AX0;" ∧
      statementText (.ldiDag ⟨.length, 3⟩ 0) = "L3=0;" := by decide
/-- Loading `.VAR b[2] = 3, 4;` (R45). -/
theorem test_load_symbol :
    (State.reset.loadSymbol ⟨⟨"b", 2, false, [3, 4]⟩, 0x10⟩).dmWord 0x11 = 4 := by decide

/-! ## Witnesses: each meets all the hypotheses of the obligation it is named after -/

/-- Example 2 of the source as a step: I0 = 9, M0 = 3, L0 = 5, and `AX0=DM(I0,M0);` at the pc. -/
def circular : State :=
  (dagState 0 0 9 3 5).withFetchWord 24 0x600000

theorem witness_StepKeepsInvariant : circular.Inv ∧ (after (step circular)).isSome = true := by decide

theorem witness_StepKeepsCircularBuffer :
    circular.l 0 ≠ 0 ∧ circular.InOwnBuffer 0 ∧
      fetch circular = .ok 0x600000 ∧ decode 0x600000 = .ok (.ldDmInd .ax0 0 0) ∧
      (Instr.ldDmInd .ax0 0 0).loadsDag ⟨.index, 0⟩ = false ∧ (Instr.ldDmInd .ax0 0 0).loadsDag ⟨.length, 0⟩ = false ∧
      (after (step circular)).isSome = true := by decide

theorem witness_DecodeReadsEncodeBack :
    (Instr.ldDmInd .sr1 7 4).wellFormed = true ∧ (Instr.callInd 7 15).wellFormed = true ∧
      (Instr.ldiDag ⟨.length, 7⟩ 0x3FFF).wellFormed = true := by decide

theorem witness_DecodedWordIsItsEncoding :
    decode 0x7000FF = .ok (.ldDmInd .sr1 7 7) ∧ decode 0x0B0000 = .ok (.jumpInd 4 0) := by decide

/-- A state for each of the two clauses. -/
theorem witness_StepRunsDecodedInstruction :
    circular.backed .pm circular.pc = true ∧ circular.cell .pm circular.pc ∉ circular.pmWritten ∧
      circular.pmWord? (circular.cell .pm circular.pc) = some 0x600000 ∧
      decode 0x600000 = .ok (.ldDmInd .ax0 0 0) ∧ circular.admits (.ldDmInd .ax0 0 0) = true ∧
      (twoDregs.withFetchWord 24 0x600010).backed .pm 0 = true ∧ (twoDregs.withFetchWord 24 0x600010).pmWritten = [] ∧
      (twoDregs.withFetchWord 24 0x600010).pmWord? 0 = some 0x600010 ∧
      decode 0x600010 = .ok (.ldDmInd .ax1 0 0) ∧ twoDregs.admits (.ldDmInd .ax1 0 0) = false := by decide

/-- One state for each of the four clauses. -/
theorem witness_StepStopsBeforeExecuting :
    holed.backed .pm holed.pc = false ∧
      (State.reset.markWritten 0).backed .pm 0 = true ∧ (State.reset.markWritten 0).cell .pm 0 ∈ [0] ∧
      State.reset.backed .pm State.reset.pc = true ∧ State.reset.cell .pm 0 ∉ State.reset.pmWritten ∧
      State.reset.pmWord? 0 = none ∧
      (State.reset.withFetchWord 24 0).backed .pm 0 = true ∧ (State.reset.withFetchWord 24 0).pmWritten = [] ∧
      (State.reset.withFetchWord 24 0).pmWord? 0 = some 0 ∧ decode 0 = .error .noPattern := by decide

/-- The two patterns of the corner cases, and a length of zero and another one. -/
theorem witness_LdiDagLoadsTheImmediate :
    (0x3FFF : Addr) = 0x3FFF ∧ (0x2000 : Addr) = 0x2000 ∧ (⟨.length, 7⟩ : DagReg).file = .length ∧
      completes (.ldiDag ⟨.length, 7⟩ 0) circular = true ∧ completes (.ldiDag ⟨.length, 7⟩ 0x3FFF) circular = true := by
  decide

/-- A source of each kind: a data register, PX, an L register, an M register. -/
theorem witness_MovToDagLoadsLowerFourteenBits :
    completes (.movToDag ⟨.index, 0⟩ (.dreg .sr1)) State.reset = true ∧
      completes (.movToDag ⟨.length, 7⟩ .px) State.reset = true ∧
      completes (.movToDag ⟨.modify, 4⟩ (.dag ⟨.length, 3⟩)) State.reset = true ∧ DagFile.length ≠ .modify ∧
      completes (.movToDag ⟨.index, 4⟩ (.dag ⟨.modify, 3⟩)) State.reset = true := by decide

theorem witness_MovFromDagExtendsToSixteenBits :
    (⟨.index, 7⟩ : DagReg).file ≠ .modify ∧ (⟨.modify, 0⟩ : DagReg).file = .modify := by decide

theorem witness_DmdReadKeepsTheRegistersNumber :
    (⟨.length, 0⟩ : DagReg).file ≠ .modify ∧ (⟨.modify, 7⟩ : DagReg).file = .modify := by decide

theorem witness_MovToPxTakesTheLowerEightBits :
    completes (.movToPx (.dreg .ax0)) State.reset = true ∧
      completes (.movToPx (.dag ⟨.modify, 4⟩)) State.reset = true ∧ completes (.movToPx .px) State.reset = true := by
  decide

theorem witness_MovToMstatWritesTheMode : State.reset.platform.bitRevPos.val < 7 ∧ 6 < 7 := by decide

theorem witness_DagToDagMoveCopies : (⟨.index, 0⟩ : DagReg) = ⟨.index, 0⟩ := by decide

theorem witness_LdDmDirectLoadsTheWord :
    State.reset.backed .dm 0 = true ∧ State.reset.backed .dm 0x3FFF = true := by decide

theorem witness_StDmDirectStoresTheRegister :
    holed.backed .dm 0x101 = true ∧ State.reset.backed .dm 0x3FFF = true := by decide

/-- Linear and circular operands of each DAG, and one of two DAGs. -/
theorem witness_AgenGivesAddressAndUpdate :
    dagOf 0 = dagOf 3 ∧ dagOf 4 = dagOf 7 ∧ State.reset.l 0 = 0 ∧ State.reset.l 4 = 0 ∧
      (dagState 4 7 12 4 5).l 4 ≠ 0 ∧ inBuffer ((dagState 4 7 12 4 5).i 4) ((dagState 4 7 12 4 5).l 4) = true ∧
      modifyBelowLength ((dagState 4 7 12 4 5).m 7) ((dagState 4 7 12 4 5).l 4) = true ∧ dagOf 3 ≠ dagOf 4 := by decide

/-- The ends of the range, and lengths on both sides of a power of two. -/
theorem witness_BufferExponentIsLeast :
    16383 ≤ 2 ^ 14 ∧ 1 ≤ bufferExponent 16383 ∧ 1 ≤ 2 ^ 0 ∧ 1 ≤ bufferExponent 2 := by decide

/-- A buffer at the bottom, one that ends at the top, a power of two. -/
theorem witness_BufferBaseIsTheOnlyPlacement :
    inBuffer 0 3 = true ∧ inBuffer 0x3FFE 0x3FFF = true ∧ inBuffer 0x3FFF 0x2000 = true ∧
      4 % 2 ^ bufferExponent 3 = 0 ∧ (6 : Addr).toNat < 4 + 3 ∧ (0x2000 : Addr).toNat = 2 ^ 13 := by decide

/-- The first and the last word of a buffer, with steps of `L - 1` both ways; and each condition broken. -/
theorem witness_CircularUpdateFollowsTheFormula :
    inBuffer 8 5 = true ∧ inBuffer 12 5 = true ∧ modifyBelowLength 4 5 = true ∧ modifyBelowLength 0x3FFC 5 = true ∧
      inBuffer 13 5 = false ∧ modifyBelowLength 5 5 = false := by decide

/-- The longest buffer with the largest steps, and a buffer of one word. -/
theorem witness_CircularUpdateStaysInTheBuffer :
    (postModify 0x3FFE 0x1FFF 0x3FFF = .ok 0x1FFE ∧ postModify 0x3FFE 0x2000 0x3FFF = .ok 0x1FFE) ∧
      postModify 0x1234 0 1 = .ok 0x1234 := by decide

/-- One input for each of the three cases: past the end, before the base, inside. -/
theorem witness_CircularUpdateCorrectsOnce :
    (postModify 12 1 5 = .ok 8 ∧ 12 + sval14 1 ≥ bufferBase 12 5 + 5) ∧
      (postModify 8 0x3FFF 5 = .ok 12 ∧ 8 + sval14 0x3FFF < bufferBase 8 5) ∧
      (postModify 9 3 5 = .ok 12 ∧ 9 + sval14 3 < bufferBase 9 5 + 5) := by decide

/-- An index just past its buffer and a modify value as long as the buffer, in DAG1 and in DAG2; nothing is moved. -/
theorem witness_UpdateWithoutResultIsRefused :
    (dagState 0 0 7 1 7).l 0 ≠ 0 ∧ dagOf 0 = dagOf 0 ∧
      inBuffer ((dagState 0 0 7 1 7).i 0) ((dagState 0 0 7 1 7).l 0) = false ∧
      (dagState 4 5 5 3 3).l 4 ≠ 0 ∧ inBuffer ((dagState 4 5 5 3 3).i 4) ((dagState 4 5 5 3 3).l 4) = true ∧
      modifyBelowLength ((dagState 4 5 5 3 3).m 5) ((dagState 4 5 5 3 3).l 4) = false ∧
      dagOf 4 = 2 ∧ dagOf 5 = 2 ∧ (dagState 4 5 7 1 7).l 4 ≠ 0 ∧
      inBuffer ((dagState 4 5 7 1 7).i 4) ((dagState 4 5 7 1 7).l 4) = false := by decide

theorem witness_ZeroModifyKeepsTheIndex : (0 : Addr) = 0 ∧ inBuffer 0x1234 1 = true := by decide

theorem witness_BitReversalReversesFourteenLines : 0 < 14 ∧ 6 < 14 ∧ 7 < 14 ∧ 13 < 14 := by decide

theorem witness_ReversalIsDag1sAddressOnly :
    (reversed circular).bitRev = true ∧ completes (.ldDmInd .ax0 0 0) (reversed circular) = true ∧
      completes (.stDmInd 4 7 .ax0) (reversed circular) = true ∧
      completes (.ldPmInd .ax0 4 7) (reversed circular) = true ∧
      completes (.stPmInd 4 7 .ax0) (reversed circular) = true := by decide

theorem witness_NBitReversalKeepsUpperOutputAndReturns : 1 ≤ 1 ∧ 12 < 14 - 1 ∧ 1 ≤ 13 ∧ 0 < 14 - 13 ∧ 14 ≤ 14 := by
  decide

theorem witness_TheTwoDagsAreIndependent : dagOf 0 = 1 ∧ dagOf 3 = 1 ∧ dagOf 4 = 2 ∧ dagOf 7 = 2 := by decide

/-- A circular access of DAG1, reversed, and a linear one of DAG2. -/
theorem witness_LdDmIndLoadsAndPostModifies :
    dagOf 0 = dagOf 3 ∧ (reversed circular).UpdateDefined 0 3 ∧ (reversed circular).l 0 ≠ 0 ∧
      circular.UpdateDefined 4 7 ∧ (reversed circular).backed .dm ((reversed circular).outAddr 0) = true ∧
      dagOf 4 = dagOf 7 ∧ circular.backed .dm (circular.outAddr 4) = true := by decide

theorem witness_StDmIndStoresAndPostModifies :
    dagOf 0 = dagOf 3 ∧ circular.UpdateDefined 0 3 ∧ circular.l 0 ≠ 0 ∧
      circular.backed .dm (circular.outAddr 0) = true ∧
      dagOf 7 = dagOf 4 ∧ circular.UpdateDefined 7 4 ∧ circular.backed .dm (circular.outAddr 7) = true := by decide

/-- Each of the four forms, and a state with L and M zero. -/
theorem witness_EveryIndirectAccessPostModifies :
    (Instr.ldDmInd .ax0 0 0).indirect? = some (0, 0) ∧ completes (.ldDmInd .ax0 0 0) circular = true ∧
      (Instr.stDmInd 3 1 .ax0).indirect? = some (3, 1) ∧ completes (.stDmInd 3 1 .ax0) circular = true ∧
      circular.l 3 = 0 ∧ circular.m 1 = 0 ∧
      (Instr.ldPmInd .ax0 4 7).indirect? = some (4, 7) ∧ completes (.ldPmInd .ax0 4 7) circular = true ∧
      (Instr.stPmInd 4 7 .ax0).indirect? = some (4, 7) ∧ completes (.stPmInd 4 7 .ax0) circular = true := by decide

theorem witness_LdPmIndSplitsTheWord :
    dagOf 4 = 2 ∧ dagOf 7 = 2 ∧ circular.UpdateDefined 4 7 ∧ circular.backed .pm (circular.i 4) = true ∧
      (dagState 4 7 12 4 5).l 4 ≠ 0 ∧ (dagState 4 7 12 4 5).UpdateDefined 4 7 := by decide

theorem witness_StPmIndJoinsTheWord :
    dagOf 7 = 2 ∧ dagOf 4 = 2 ∧ circular.UpdateDefined 7 4 ∧ circular.backed .pm (circular.i 7) = true := by decide

/-- `AX0=PM(I4,M4); PM(I5,M5)=AX0;` of program C3. -/
theorem witness_LoadThenStoreCopiesAllBits :
    ((after (exec (.ldPmInd .ax0 4 4) (dagState 4 4 0x100 1 0))).map (completes (.stPmInd 5 5 .ax0))) = some true := by
  decide

theorem witness_EnaBitRevSetsTheMode : (reversed State.reset).bitRev = true := by decide

theorem witness_DisBitRevResetsTheMode : State.reset.bitRev = false := by decide

theorem witness_CompletedStatementGoesToTheNext :
    completes .enaBitRev State.reset = true ∧ State.reset.pc ≠ 0x3FFF ∧
      completes .enaBitRev { State.reset with pc := 0x3FFF } = true := by decide

/-- The three clauses, in one state with a hole in each space. -/
theorem witness_UnbackedAccessHasNoStep :
    holed.backed .dm 0x100 = false ∧ (holed.setI 0 0x100).backed .dm ((holed.setI 0 0x100).outAddr 0) = false ∧
      (holed.setI 0 0x100).UpdateDefined 0 3 ∧ dagOf 0 = dagOf 3 ∧ holed.UpdateDefined 4 7 ∧ dagOf 7 = 2 ∧ dagOf 4 = 2 ∧ holed.backed .pm (holed.i 4) = false := by decide

theorem witness_IllFormedOperandsAreRejected : dagOf 0 ≠ dagOf 4 ∧ dagOf 0 ≠ 2 ∧ dagOf 3 ≠ 2 := by decide

theorem witness_ImmediateRangeIsFourteenBits :
    immOfInt (-8192) = some 0x2000 ∧ immOfInt 16383 = some 0x3FFF ∧ immOfInt 0 = some 0 := by decide

/-- The same cell and another. -/
theorem witness_LoadReturnsTheLastStore :
    ((after (exec (.stDmDirect 0x100 (.dreg .ax0)) State.reset)).map (completes (.ldDmDirect (.dreg .mx0) 0x100))) =
        some true ∧
      ((after (exec (.stDmDirect 0x100 (.dreg .ax0)) State.reset)).map (completes (.ldDmDirect (.dreg .mx0) 0x101))) =
        some true ∧
      State.reset.cell .dm 0x100 ≠ State.reset.cell .dm 0x101 := by decide

/-- A store and then a load under another selection, which complete in both spaces. -/
def loadUnder (sel : OvlSel) : Option (State × State) := do
  let t ← after (exec (.stDmDirect 0x100 (.dreg .ax0)) (overlaid.setX .ax0 7))
  let u ← after (exec (.ldDmDirect (.dreg .mx0) 0x100) { t with dmovlay := sel })
  let v ← after (exec (.stPmInd 4 4 .ax0) ((overlaid.setX .ax0 7).setI 4 0x100))
  let w ← after (exec (.ldPmInd .mx0 4 4) { v with pmovlay := sel })
  return (u, w)

/-- Another cell, the same cell, no overlay region, and a route. -/
theorem witness_OverlaySelectionChoosesTheCell :
    (loadUnder ⟨1⟩).isSome = true ∧ cellOf overlaid.platform .dm ⟨1⟩ 0x100 ≠ overlaid.cell .dm 0x100 ∧
      cellOf overlaid.platform .pm ⟨1⟩ 0x100 ≠ overlaid.cell .pm 0x100 ∧
      (loadUnder ⟨2⟩).map (fun p => (p.1.x .mx0, p.2.x .mx0)) = some (7, 7) ∧
      cellOf overlaid.platform .dm ⟨2⟩ 0x100 = overlaid.cell .dm 0x100 ∧
      cellOf overlaid.platform .pm ⟨2⟩ 0x100 = overlaid.cell .pm 0x100 ∧
      (after (exec (.stPmInd 4 4 .ax0) (overlaid.setI 4 0x100))).map (·.i 4) = some 0x100 ∧
      inOverlay overlaid.platform .dm 0x101 = false ∧ inOverlay overlaid.platform .pm 0x101 = false ∧
      overlaid.platform.routes.find? (fun k => k.place == ⟨.pm, ⟨1⟩, 0x100⟩) = some ⟨⟨.pm, ⟨1⟩, 0x100⟩, 0x4000⟩ := by
  decide

theorem witness_FrameOfDagRegisterLoads :
    completes (.ldiDag ⟨.index, 0⟩ 5) State.reset = true ∧ completes (.movToDag ⟨.modify, 7⟩ .px) State.reset = true := by
  decide

theorem witness_FrameOfDataRegisterMoves :
    completes (.movFromDag .ax0 ⟨.length, 7⟩) State.reset = true ∧ completes (.movFromPx .sr1) State.reset = true := by
  decide

theorem witness_FrameOfDataMemoryLoads :
    completes (.ldDmDirect (.dreg .ax0) 0) circular = true ∧
      completes (.ldDmDirect (.dag ⟨.length, 4⟩) 0x3FFF) circular = true ∧
      completes (.ldDmInd .ax0 0 0) circular = true := by decide

theorem witness_FrameOfDataMemoryStores :
    completes (.stDmDirect 0x3FFF (.dag ⟨.modify, 0⟩)) circular = true ∧
      completes (.stDmInd 0 0 .ax0) circular = true ∧ circular.cell .dm (circular.outAddr 0) = 9 := by decide

theorem witness_FrameOfProgramMemoryLoad : completes (.ldPmInd .ax0 4 4) circular = true := by decide

theorem witness_FrameOfProgramMemoryStore :
    completes (.stPmInd 4 4 .ax0) circular = true ∧ circular.cell .pm (circular.i 4) = 0 := by decide

theorem witness_FrameOfMoveToPx : completes (.movToPx .px) State.reset = true := by decide

theorem witness_FrameOfModeStatements :
    completes .enaBitRev State.reset = true ∧ completes .disBitRev State.reset = true ∧
      completes (.movToMstat .ax0) State.reset = true ∧ 6 ≠ State.reset.platform.bitRevPos.val := by decide

theorem witness_DagRegistersChangeOnlyAsSaid :
    completes (.ldDmInd .ax0 0 0) circular = true ∧ (Instr.ldDmInd .ax0 0 0).loadsDag ⟨.modify, 0⟩ = false ∧
      (Instr.ldDmInd .ax0 0 0).loadsDag ⟨.length, 0⟩ = false ∧
      (Instr.ldDmInd .ax0 0 0).loadsDag ⟨.index, 1⟩ = false ∧ (Instr.ldDmInd .ax0 0 0).selects 1 = false := by decide

theorem witness_PxChangesOnlyAsSaid :
    completes (.movFromPx .ax0) State.reset = true ∧ (∀ r i j, Instr.movFromPx .ax0 ≠ .ldPmInd r i j) ∧
      (∀ src, Instr.movFromPx .ax0 ≠ .movToPx src) :=
  ⟨by decide, fun _ _ _ h => Instr.noConfusion h, fun _ h => Instr.noConfusion h⟩

theorem witness_ModeAndOverlaysChangeOnlyAsSaid :
    completes (.ldiDag ⟨.index, 0⟩ 5) State.reset = true ∧ Instr.ldiDag ⟨.index, 0⟩ 5 ≠ .enaBitRev ∧
      Instr.ldiDag ⟨.index, 0⟩ 5 ≠ .disBitRev ∧ ∀ r, Instr.ldiDag ⟨.index, 0⟩ 5 ≠ .movToMstat r :=
  ⟨by decide, by decide, by decide, fun _ h => Instr.noConfusion h⟩

end Sys2Proof.Tests
end

section
/-! PROOF. Overlay registers and address generation (20_memory.md rule R37). -/

namespace Sys2Proof.Machine

/-! ## What address generation reads -/

/-- `AGEN` reads `I[i]`, `M[j]`, `L[i]` and the bit-reverse mode, and nothing else of the state (R67, R70, R90). -/
theorem agen_congr {s t : State} {i j : Fin 8} (hi : t.i i = s.i i) (hm : t.m j = s.m j) (hl : t.l i = s.l i)
    (hb : t.bitRev = s.bitRev) : agen t i j = agen s i j := by
  have hnext : t.nextI i j = s.nextI i j := by simp only [State.nextI, hi, hm, hl]
  have hout : t.outAddr i = s.outAddr i := by simp only [State.outAddr, hi, hb]
  simp only [agen, hnext, hout]

/-- The form of a program memory access reads no more than `AGEN` does (R29). -/
theorem agenPm_congr {s t : State} {i j : Fin 8} (h : agen t i j = agen s i j) : agenPm t i j = agenPm s i j := by
  simp only [agenPm, h]

/-! ## Other overlay selections -/

theorem agen_overlays (s : State) (p d : OvlSel) (i j : Fin 8) :
    agen { s with pmovlay := p, dmovlay := d } i j = agen s i j :=
  agen_congr rfl rfl rfl rfl

theorem dagReg_overlays (s : State) (p d : OvlSel) (x : DagReg) :
    State.dagReg { s with pmovlay := p, dmovlay := d } x = s.dagReg x := by
  obtain ⟨file, idx⟩ := x
  cases file <;> rfl

/-- An access to data memory follows DMOVLAY, whatever PMOVLAY is (R20, R36). -/
theorem cell_dm_overlays (s : State) (p d : OvlSel) (a : Addr) :
    State.cell { s with pmovlay := p, dmovlay := d } .dm a = cellOf s.platform .dm d a := rfl

/-- An access to program memory follows PMOVLAY, whatever DMOVLAY is (R20, R36). -/
theorem cell_pm_overlays (s : State) (p d : OvlSel) (a : Addr) :
    State.cell { s with pmovlay := p, dmovlay := d } .pm a = cellOf s.platform .pm p a := rfl

/-- Settles O29: the overlay registers are outside what address generation and the DAG registers read, and the cell of an
access is that of the selection in force. -/
theorem overlayRegistersDoNotReachTheDags : Obligations.OverlayRegistersDoNotReachTheDags := by
  intro s p d i j
  have hagen := agen_overlays s p d i j
  exact ⟨hagen, agenPm_congr hagen, dagReg_overlays s p d,
    fun a => ⟨cell_dm_overlays s p d a, cell_pm_overlays s p d a⟩⟩

end Sys2Proof.Machine
end

section
/-! PROOF. Register moves and direct loads over the DMD bus (40_dag_register_access.md rules R58 to R60, R63 to R65). -/

namespace Sys2Proof.Machine

/-! ## The register written -/

@[simp] theorem State.setX_x_same (s : State) (r : DReg) (v : Word) : (s.setX r v).x r = v := by
  rw [State.setX_x, if_pos rfl]

@[simp] theorem State.setDagReg_dagReg_same (s : State) (x : DagReg) (v : Addr) : (s.setDagReg x v).dagReg x = v := by
  rw [State.setDagReg_dagReg, if_pos rfl]

theorem State.setDagReg_dagReg_other (s : State) {x y : DagReg} (v : Addr) (h : y ≠ x) :
    (s.setDagReg x v).dagReg y = s.dagReg y := by
  rw [State.setDagReg_dagReg, if_neg h.symm]

/-! ## The DAG registers after a completed statement -/

theorem State.setX_advance_sameDag (s : State) (r : DReg) (v : Word) : s.SameDag (s.setX r v).advance := by
  simp [State.SameDag]

theorem State.setPx_advance_sameDag (s : State) (v : Byte) : s.SameDag (s.setPx v).advance :=
  ⟨rfl, rfl, rfl⟩

theorem State.setDagReg_advance_sameDagBut (s : State) (x : DagReg) (v : Addr) :
    s.SameDagBut (s.setDagReg x v).advance x :=
  fun _ hy => s.setDagReg_dagReg_other v hy

/-! ## The bus value of a DAG register -/

/-- I and L registers are zero-extended (R59). -/
theorem State.readDag_of_ne_modify {s : State} {x : DagReg} (h : x.file ≠ .modify) :
    s.readDag x = (s.dagReg x).setWidth 16 := by
  unfold State.readDag
  cases hf : x.file with
  | index => rfl
  | modify => exact absurd hf h
  | length => rfl

/-- M registers are sign-extended (R60). -/
theorem State.readDag_of_modify {s : State} {x : DagReg} (h : x.file = .modify) :
    s.readDag x = (s.dagReg x).signExtend 16 := by
  rw [State.readDag, h, busOfDag]

/-- The model's signed value (R8) is the two's complement one. -/
theorem toInt_eq_sval14 (p : Addr) : p.toInt = sval14 p := by
  rw [BitVec.toInt_eq_toNat_cond, sval14]
  split <;> split <;> omega

/-- Each bit that sign extension adds to a 14-bit pattern is its bit 13. -/
theorem getLsbD_signExtend_above (p : Addr) {k : Nat} (hk : k < 16) (h : 14 ≤ k) :
    (p.signExtend 16).getLsbD k = p.getLsbD 13 := by
  rw [BitVec.getLsbD_signExtend, if_neg (by omega), BitVec.msb_eq_getLsbD_last]
  simp [hk]

/-! ## The state that each statement leaves -/

theorem exec_movToDag (x : DagReg) (src : MoveSrc) (s : State) :
    exec (.movToDag x src) s = .next (s.setDagReg x (dagOfBus (s.moveValue src))).advance :=
  execMovToDag_next_iff.2 rfl

theorem exec_movFromDag (r : DReg) (x : DagReg) (s : State) :
    exec (.movFromDag r x) s = .next (s.setX r (s.readDag x)).advance :=
  execMovFromDag_next_iff.2 rfl

theorem exec_movToPx (src : MoveSrc) (s : State) :
    exec (.movToPx src) s = .next (s.setPx (pxOfBus (s.moveValue src))).advance :=
  execMovToPx_next_iff.2 rfl

theorem exec_ldDmDirect (d : DirectReg) {a : Addr} {s : State} (h : s.backed .dm a = true) :
    exec (.ldDmDirect d a) s = .next (s.setDirect d (s.dmWord (s.cell .dm a))).advance :=
  execLdDmDirect_next_iff.2 ⟨h, rfl⟩

/-! ## The obligations -/

/-- Settles O11: the destination holds the lower 14 bits of the bus value, and each kind of source has the bus value that
R63 names. -/
theorem movToDagLoadsLowerFourteenBits : Obligations.MovToDagLoadsLowerFourteenBits := by
  intro x src s
  have hx : (s.setDagReg x (dagOfBus (s.moveValue src))).advance.dagReg x = dagOfBus (s.moveValue src) := by simp
  refine ⟨_, exec_movToDag x src s, by simp, ?dreg, ?px, ?unsigned, ?signed⟩
  case dreg =>
    rintro r rfl
    exact hx
  case px =>
    rintro rfl
    exact hx
  case unsigned =>
    rintro y rfl hy
    rw [hx, State.moveValue, State.readDag_of_ne_modify hy, dagOfBus]
  case signed =>
    rintro y rfl hy
    rw [hx, State.moveValue, State.readDag_of_modify hy, dagOfBus]

/-- Settles O13: the data register takes the whole bus value of the DAG register, PX its lower 8 bits, and neither write
reaches a DAG register. -/
theorem movFromDagExtendsToSixteenBits : Obligations.MovFromDagExtendsToSixteenBits := by
  intro r x s
  constructor
  · have hr : (s.setX r (s.readDag x)).advance.x r = s.readDag x := by simp
    exact ⟨_, exec_movFromDag r x s, fun h => hr.trans (State.readDag_of_ne_modify h),
      fun h => hr.trans (State.readDag_of_modify h), s.setX_advance_sameDag _ _, by simp⟩
  · exact ⟨_, exec_movToPx (.dag x) s, rfl, s.setPx_advance_sameDag _, rfl⟩

/-- Settles O14: zero extension keeps the unsigned number, sign extension the signed one, and the two bits that it adds are
copies of bit 13. -/
theorem dmdReadKeepsTheRegistersNumber : Obligations.DmdReadKeepsTheRegistersNumber := by
  intro s x
  constructor
  · intro h
    rw [State.readDag_of_ne_modify h, BitVec.toNat_setWidth_of_le (by decide)]
  · intro h
    rw [State.readDag_of_modify h]
    refine ⟨?_, getLsbD_signExtend_above _ (by decide) (by decide), getLsbD_signExtend_above _ (by decide) (by decide)⟩
    rw [BitVec.toInt_signExtend_of_le (by decide), toInt_eq_sval14]

/-- Settles O15: a backed place answers its word, which a data register takes whole and a DAG register through the lower 14
bits of the bus. -/
theorem ldDmDirectLoadsTheWord : Obligations.LdDmDirectLoadsTheWord := by
  intro a s hb
  constructor
  · intro r
    exact ⟨_, exec_ldDmDirect (.dreg r) hb, s.setX_x_same r _, s.setX_advance_sameDag r _, by simp [State.setDirect]⟩
  · intro x
    exact ⟨_, exec_ldDmDirect (.dag x) hb, s.setDagReg_dagReg_same x _, s.setDagReg_advance_sameDagBut x _,
      by simp [State.setDirect, State.writeDag]⟩

end Sys2Proof.Machine
end

section
/-! PROOF. The base-mask exponent of a circular buffer (42_modulo_addressing.md rule R78). -/

namespace Sys2Proof.Machine

/-- The computed exponent is at most every exponent whose power holds the length (R78). -/
theorem bufferExponent_le_of_le_two_pow {len n : Nat} (h : len ≤ 2 ^ n) : bufferExponent len ≤ n :=
  Nat.le_of_not_lt fun hlt => Nat.not_le_of_lt (bufferExponent_least hlt) h

/-- The left inequality of R78. -/
theorem two_pow_pred_bufferExponent_lt {len : Nat} (h : 1 ≤ bufferExponent len) :
    2 ^ (bufferExponent len - 1) < len :=
  bufferExponent_least (Nat.sub_one_lt_of_lt h)

/-- Settles O19: the search goes up from 0 and stops at the first power of two that holds the length, so every exponent
below the one found is too small; 14 steps reach every length. -/
theorem bufferExponentIsLeast : Obligations.BufferExponentIsLeast := by
  refine ⟨fun len _ hle => ⟨?fits, ?least, ?left⟩, by decide⟩
  case fits => exact le_two_pow_bufferExponent (by omega)
  case least => exact fun _ => bufferExponent_le_of_le_two_pow
  case left => exact two_pow_pred_bufferExponent_lt

end Sys2Proof.Machine
end


section
/-! PROOF. Bit reversal (43_bit_reverse.md rule R89). -/

namespace Sys2Proof.Machine

/-- The pivot of R89 applied twice: bit `k` comes from bit `13 - (13 - k)`. -/
@[simp] theorem bitRev14_bitRev14 (a : Addr) : bitRev14 (bitRev14 a) = a := by
  apply BitVec.eq_of_getLsbD_eq
  intro k hk
  calc (bitRev14 (bitRev14 a)).getLsbD k
      _ = (bitRev14 a).getLsbD (13 - k) := getLsbD_bitRev14 _ k hk
      _ = a.getLsbD (13 - (13 - k)) := getLsbD_bitRev14 a (13 - k) (by omega)
      _ = a.getLsbD k := by rw [Nat.sub_sub_self (Nat.le_of_lt_succ hk)]

/-- Settles O26: the bits are those of the definition, the involution follows from them, and the eight values are computed. -/
theorem bitReversalReversesFourteenLines : Obligations.BitReversalReversesFourteenLines :=
  ⟨getLsbD_bitRev14, bitRev14_bitRev14, by decide⟩

end Sys2Proof.Machine
end

section
/-! PROOF. The explicit moves of PX over the DMD bus (44_bus_exchange.md rules R101 and R102). -/

namespace Sys2Proof.Machine

/-! ## The number that PX puts on the bus -/

/-- The upper 8 bits of the bus value are zeroes (R102). -/
@[simp] theorem toNat_busOfPx (v : Byte) : (busOfPx v).toNat = v.toNat :=
  BitVec.toNat_setWidth_of_le (by decide)

/-- A DAG register has room for all 8 bits of PX, so what it drops of the bus value (R58) is zero. -/
@[simp] theorem toNat_dagOfBus_busOfPx (v : Byte) : (dagOfBus (busOfPx v)).toNat = v.toNat := by
  have hv : v.toNat < 2 ^ 14 := v.isLt.trans (by decide)
  calc (dagOfBus (busOfPx v)).toNat
      _ = (busOfPx v).toNat % 2 ^ 14 := BitVec.extractLsb'_toNat 0 14 _
      _ = v.toNat := by rw [toNat_busOfPx, Nat.mod_eq_of_lt hv]

theorem exec_movFromPx (r : DReg) (s : State) :
    exec (.movFromPx r) s = .next (s.setX r (busOfPx s.px)).advance :=
  execMovFromPx_next_iff.2 rfl

/-! ## The obligations -/

/-- Settles O36: only PX and the pc are written, so a source register keeps its content; a move of PX to itself takes back
the bits that PX put on the bus. -/
theorem movToPxTakesTheLowerEightBits : Obligations.MovToPxTakesTheLowerEightBits := by
  intro src s
  refine ⟨_, exec_movToPx src s, by simp, ?dreg, ?dag, ?px⟩
  case dreg =>
    rintro r rfl
    exact ⟨rfl, by simp⟩
  case dag =>
    rintro x rfl
    exact ⟨rfl, by simp⟩
  case px =>
    rintro rfl
    exact pxOfBus_busOfPx s.px

/-- Settles O37: the bus value is the number that PX holds, and neither a data register nor a DAG register is too narrow
for it. -/
theorem movFromPxReadsZerosAbove : Obligations.MovFromPxReadsZerosAbove := by
  constructor
  · intro r s
    exact ⟨_, exec_movFromPx r s, by simp, by simp, by simp⟩
  · intro x s
    exact ⟨_, exec_movToDag x .px s, by simp [State.moveValue], by simp⟩

end Sys2Proof.Machine
end

section
/-! PROOF. Register-indirect jump and call (45_control_transfer.md rule R107). -/

namespace Sys2Proof.Machine

/-- Settles O42: `exec` gives each of the two statements to its own semantics, which answers its refusal without reading
the register, the condition or the state. -/
theorem registerIndirectTransfersAreRefused : Obligations.RegisterIndirectTransfersAreRefused := by
  intro i c s
  exact ⟨execJumpInd_stops i c s, execCallInd_stops i c s⟩

end Sys2Proof.Machine
end

section
/-! PROOF. The rules of the whole machine: what a completed statement can write, said once, and what follows of every
statement (10_state.md sections 1 to 3, 20_memory.md section 4, 45_control_transfer.md rule R106). -/

/-! ## Legal indirect operands (30_encoding.md rule R52) -/

namespace Sys2Proof

theorem dmOperandOk_iff {i j : Fin 8} : dmOperandOk i j = true ↔ dagOf i = dagOf j := by
  rw [dmOperandOk, beq_iff_eq]

theorem pmOperandOk_iff {i j : Fin 8} : pmOperandOk i j = true ↔ dagOf i = 2 ∧ dagOf j = 2 := by
  rw [pmOperandOk, Bool.and_eq_true, beq_iff_eq, beq_iff_eq]
  exact and_congr_right fun h => by rw [h, eq_comm]

theorem dmOperandOk_of_pmOperandOk {i j : Fin 8} (h : pmOperandOk i j = true) : dmOperandOk i j = true := by
  obtain ⟨hi, hj⟩ := pmOperandOk_iff.1 h
  exact dmOperandOk_iff.2 (hi.trans hj.symm)

end Sys2Proof

namespace Sys2Proof.Machine

/-! ## What a completed statement can write -/

/-- The one write that a statement makes beside the post-modified index and the pc, with what the statement must be to
make it. -/
inductive Writes (ins : Instr) (s : State) : State → Prop
  | dagReg {x : DagReg} {v : Addr} (h : ins.loadsDag x = true) : Writes ins s (s.setDagReg x v)
  | dataReg {r : DReg} {v : Word} : Writes ins s (s.setX r v)
  | dmWord {c : Nat} {v : Word} : Writes ins s (s.setDmWord c v)
  | pmRead {r : DReg} {i j : Fin 8} {v : Word} {b : Byte} (h : ins = .ldPmInd r i j) :
      Writes ins s ((s.setX r v).setPx b)
  | pmWord {c : Nat} {v : PmWord} : Writes ins s ((s.setPmWord c v).markWritten c)
  | px {src : MoveSrc} {b : Byte} (h : ins = .movToPx src) : Writes ins s (s.setPx b)
  | mstat {v : BitVec 7} (h : ins = .enaBitRev ∨ ins = .disBitRev ∨ ∃ r, ins = .movToMstat r) :
      Writes ins s (s.setMstat v)

/-- The state a statement leaves, from the state its write leaves: the updated index where it has an indirect operand
(R69), and the pc of the next statement (R106). -/
inductive Completes (ins : Instr) (s u : State) : State → Prop
  | plain (h : ins.indirect? = none) : Completes ins s u u.advance
  | indirect {i j : Fin 8} {n : Addr} (h : ins.indirect? = some (i, j)) (hok : dmOperandOk i j = true)
      (hn : s.nextI i j = .ok n) : Completes ins s u (u.setI i n).advance

/-- Every completed statement makes one of the writes, then updates its index and the pc. -/
theorem exec_next_cases {ins : Instr} {s t : State} (h : exec ins s = .next t) :
    ∃ u, Writes ins s u ∧ Completes ins s u t := by
  cases ins with
  | ldiDag x imm => exact execLdiDag_next_iff.1 h ▸ ⟨_, .dagReg (beq_self_eq_true x), .plain rfl⟩
  | movToDag x src => exact execMovToDag_next_iff.1 h ▸ ⟨_, .dagReg (beq_self_eq_true x), .plain rfl⟩
  | movFromDag r x => exact execMovFromDag_next_iff.1 h ▸ ⟨_, .dataReg, .plain rfl⟩
  | ldDmDirect d a =>
    obtain ⟨_, rfl⟩ := execLdDmDirect_next_iff.1 h
    cases d with
    | dreg r => exact ⟨_, .dataReg, .plain rfl⟩
    | dag x => exact ⟨_, .dagReg (beq_self_eq_true (DirectReg.dag x)), .plain rfl⟩
  | stDmDirect a d =>
    obtain ⟨_, rfl⟩ := execStDmDirect_next_iff.1 h
    exact ⟨_, .dmWord, .plain rfl⟩
  | ldDmInd r i j =>
    obtain ⟨hok, _, n, hn, rfl⟩ := execLdDmInd_next_iff.1 h
    exact ⟨_, .dataReg, .indirect rfl hok hn⟩
  | stDmInd i j r =>
    obtain ⟨hok, _, n, hn, rfl⟩ := execStDmInd_next_iff.1 h
    exact ⟨_, .dmWord, .indirect rfl hok hn⟩
  | ldPmInd r i j =>
    obtain ⟨hok, _, n, hn, rfl⟩ := execLdPmInd_next_iff.1 h
    exact ⟨_, .pmRead rfl, .indirect rfl (dmOperandOk_of_pmOperandOk hok) hn⟩
  | stPmInd i j r =>
    obtain ⟨hok, _, n, hn, rfl⟩ := execStPmInd_next_iff.1 h
    exact ⟨_, .pmWord, .indirect rfl (dmOperandOk_of_pmOperandOk hok) hn⟩
  | movToPx src => exact execMovToPx_next_iff.1 h ▸ ⟨_, .px rfl, .plain rfl⟩
  | movFromPx r => exact execMovFromPx_next_iff.1 h ▸ ⟨_, .dataReg, .plain rfl⟩
  | enaBitRev => exact execEnaBitRev_next_iff.1 h ▸ ⟨_, .mstat (.inl rfl), .plain rfl⟩
  | disBitRev => exact execDisBitRev_next_iff.1 h ▸ ⟨_, .mstat (.inr (.inl rfl)), .plain rfl⟩
  | movToMstat r => exact execMovToMstat_next_iff.1 h ▸ ⟨_, .mstat (.inr (.inr ⟨r, rfl⟩)), .plain rfl⟩
  | jumpInd i c => cases (execJumpInd_stops i c s).symm.trans h
  | callInd i c => cases (execCallInd_stops i c s).symm.trans h

/-! ## What a write leaves unchanged -/

section
variable {ins : Instr} {s u t : State}

theorem Writes.dagReg_eq (h : Writes ins s u) {y : DagReg} (hy : ins.loadsDag y = false) :
    u.dagReg y = s.dagReg y := by
  cases h with
  | dagReg hx =>
    refine s.setDagReg_dagReg_other _ fun e => ?_
    rw [e, hx] at hy
    cases hy
  | dataReg => simp
  | dmWord => simp
  | pmRead => simp
  | pmWord => simp
  | px => simp
  | mstat => simp

theorem Writes.pc_eq (h : Writes ins s u) : u.pc = s.pc := by
  cases h <;> simp

theorem Writes.px_eq (h : Writes ins s u) (hr : ∀ r i j, ins ≠ .ldPmInd r i j) (hm : ∀ src, ins ≠ .movToPx src) :
    u.px = s.px := by
  cases h with
  | dagReg => simp
  | dataReg => simp
  | dmWord => simp
  | pmRead hi => exact absurd hi (hr _ _ _)
  | pmWord => simp
  | px hi => exact absurd hi (hm _)
  | mstat => simp

theorem Writes.sameMap (h : Writes ins s u) : s.SameMap u := by
  cases h <;> simp [State.SameMap]

theorem Writes.mstat_eq (h : Writes ins s u) (he : ins ≠ .enaBitRev) (hd : ins ≠ .disBitRev)
    (hm : ∀ r, ins ≠ .movToMstat r) : u.mstat = s.mstat := by
  cases h with
  | dagReg => simp
  | dataReg => simp
  | dmWord => simp
  | pmRead => simp
  | pmWord => simp
  | px => simp
  | mstat hi =>
    obtain hi | hi | ⟨r, hi⟩ := hi
    · exact absurd hi he
    · exact absurd hi hd
    · exact absurd hi (hm r)

/-! ## What the completion changes -/

theorem Completes.pc_eq (h : Completes ins s u t) : t.pc = nextPc u.pc := by
  cases h <;> rfl

theorem Completes.px_eq (h : Completes ins s u t) : t.px = u.px := by
  cases h <;> rfl

theorem Completes.mstat_eq (h : Completes ins s u t) : t.mstat = u.mstat := by
  cases h <;> rfl

theorem Completes.sameMap (h : Completes ins s u t) (hu : s.SameMap u) : s.SameMap t := by
  cases h <;> exact hu

theorem Completes.m_eq (h : Completes ins s u t) (k : Fin 8) : t.m k = u.m k := by
  cases h <;> rfl

theorem Completes.l_eq (h : Completes ins s u t) (k : Fin 8) : t.l k = u.l k := by
  cases h <;> rfl

theorem Completes.i_eq (h : Completes ins s u t) {k : Fin 8} (hk : ins.selects k = false) : t.i k = u.i k := by
  cases h with
  | plain => rfl
  | indirect hi =>
    refine (u.setI_i _ k _).trans (if_neg fun e => ?_)
    simp [Instr.selects, hi, e] at hk

end

/-! ## The invariant -/

theorem State.Inv.setDagReg {s : State} (h : s.Inv) (x : DagReg) (v : Addr) : (s.setDagReg x v).Inv := by
  simpa [State.Inv] using h

theorem State.Inv.setX {s : State} (h : s.Inv) (r : DReg) (v : Word) : (s.setX r v).Inv := by
  simpa [State.Inv] using h

theorem State.Inv.setDmWord {s : State} (h : s.Inv) (c : Nat) (v : Word) : (s.setDmWord c v).Inv := by
  obtain ⟨hdm, hrest⟩ := h
  exact ⟨Memory.putWord16_wf c v hdm, hrest⟩

/-- A program memory store lists its word and records its cell, so the record stays true (R43). -/
theorem State.Inv.storePmWord {s : State} (h : s.Inv) (c : Nat) (v : PmWord) :
    ((s.setPmWord c v).markWritten c).Inv := by
  obtain ⟨hdm, hpm, hrising, hlisted⟩ := h
  refine ⟨hdm, Memory.putWord24_wf c v hpm, insertNat_rising c hrising, fun n hn => ?_⟩
  rw [State.markWritten_pmWordQ, State.setPmWord_pmWord?]
  split
  · rfl
  case isFalse hne => exact hlisted n ((mem_insertNat.1 hn).resolve_left hne)

theorem Writes.inv {ins : Instr} {s u : State} (h : Writes ins s u) (hs : s.Inv) : u.Inv := by
  cases h with
  | dagReg => exact hs.setDagReg _ _
  | dataReg => exact hs.setX _ _
  | dmWord => exact hs.setDmWord _ _
  | pmRead => exact hs.setX _ _
  | pmWord => exact hs.storePmWord _ _
  | px => exact hs
  | mstat => exact hs

theorem Completes.inv {ins : Instr} {s u t : State} (h : Completes ins s u t) (hu : u.Inv) : t.Inv := by
  cases h <;> exact hu

theorem exec_keeps_inv {ins : Instr} {s t : State} (h : exec ins s = .next t) (hs : s.Inv) : t.Inv := by
  obtain ⟨u, hw, hc⟩ := exec_next_cases h
  exact hc.inv (hw.inv hs)

/-! ## The obligations -/

/-- Settles O3: of the writes a statement can make only the two stores reach a memory, and each keeps the keys rising;
the program memory store adds to the record a cell whose word it has just listed. -/
theorem stepKeepsInvariant : Obligations.StepKeepsInvariant := by
  intro s t hs h
  obtain ⟨w, ins, _, _, hex⟩ := step_next_iff.1 h
  exact exec_keeps_inv hex hs

/-- Settles O43: no write of a statement is to the pc, and the completion moves it on once. -/
theorem completedStatementGoesToTheNext : Obligations.CompletedStatementGoesToTheNext := by
  intro ins s t h
  obtain ⟨u, hw, hc⟩ := exec_next_cases h
  have hpc : t.pc = nextPc s.pc := hc.pc_eq.trans (congrArg nextPc hw.pc_eq)
  exact ⟨hpc, fun hne => hpc.trans (if_neg hne)⟩

/-- Settles O57: the write of a statement is to a DAG register only if the statement loads it, and the completion adds
the index register that its operand selects. -/
theorem dagRegistersChangeOnlyAsSaid : Obligations.DagRegistersChangeOnlyAsSaid := by
  intro ins s t k h
  obtain ⟨u, hw, hc⟩ := exec_next_cases h
  exact ⟨fun hm => (hc.m_eq k).trans (hw.dagReg_eq hm), fun hl => (hc.l_eq k).trans (hw.dagReg_eq hl),
    fun hi hsel => (hc.i_eq hsel).trans (hw.dagReg_eq hi)⟩

/-- Settles O58: of the writes a statement can make only the program memory read and the move to PX reach PX. -/
theorem pxChangesOnlyAsSaid : Obligations.PxChangesOnlyAsSaid := by
  intro ins s t h hr hm
  obtain ⟨u, hw, hc⟩ := exec_next_cases h
  exact hc.px_eq.trans (hw.px_eq hr hm)

/-- Settles O59: no write of a statement is to an overlay register or to the platform, and only the mode statements
write MSTAT. -/
theorem modeAndOverlaysChangeOnlyAsSaid : Obligations.ModeAndOverlaysChangeOnlyAsSaid := by
  intro ins s t h
  obtain ⟨u, hw, hc⟩ := exec_next_cases h
  exact ⟨hc.sameMap hw.sameMap, fun he hd hm => hc.mstat_eq.trans (hw.mstat_eq he hd hm)⟩

end Sys2Proof.Machine
end

section
/-! PROOF. The decoder and the encoder are inverse to each other (30_encoding.md sections 5 and 7). -/

namespace Sys2Proof

open Laws.EncodingFits

/-! ## Fields of a word -/

theorem field_lt (w hi lo : Nat) : field w hi lo < 2 ^ (hi + 1 - lo) :=
  Nat.mod_lt _ (Nat.two_pow_pos _)

/-- A bit vector as wide as a field holds it whole. -/
theorem toNat_ofNat_field (w hi lo : Nat) : (BitVec.ofNat (hi + 1 - lo) (field w hi lo)).toNat = field w hi lo := by
  rw [BitVec.toNat_ofNat, Nat.mod_eq_of_lt (field_lt w hi lo)]

theorem word_eq_fields {w : Nat} (hw : w < 2 ^ 24) : w = field w 23 8 * 2 ^ 8 + field w 7 0 := by
  unfold field
  omega

/-! ## Register codes -/

theorem dregOfCode_code (r : DReg) : dregOfCode r.code = .ok r := by
  cases r <;> rfl

theorem code_of_dregOfCode {c : Nat} {r : DReg} (h : dregOfCode c = .ok r) : r.code = c := by
  unfold dregOfCode at h
  split at h <;> cases h <;> rfl

theorem dagIndex_mod (second : Bool) (k : Nat) : (dagIndex second k).val % 4 = k % 4 := by
  cases second <;> simp [dagIndex]

theorem dagOf_eq (i : Fin 8) : dagOf i = 1 ∨ dagOf i = 2 := by
  unfold dagOf
  split
  · exact .inl rfl
  · exact .inr rfl

theorem dagOf_dagIndex (second : Bool) (k : Nat) : dagOf (dagIndex second k) = if second then 2 else 1 := by
  have := Nat.mod_lt k (show 0 < 4 by decide)
  cases second <;> simp [dagIndex, dagOf] <;> omega

/-- The DAG and the number within it give the register back. -/
theorem dagIndex_of_dagOf {second : Bool} {i : Fin 8} (h : dagOf i = if second then 2 else 1) (k : Nat)
    (hk : k % 4 = i.val % 4) : dagIndex second k = i := by
  apply Fin.ext
  have := i.isLt
  unfold dagOf at h
  cases second <;> simp [dagIndex] at h ⊢ <;> omega

theorem dagRegOfCode_code {second : Bool} {x : DagReg} (h : dagOf x.idx = if second then 2 else 1) :
    dagRegOfCode second x.code = .ok x := by
  obtain ⟨f, k⟩ := x
  have hk := Nat.mod_lt k.val (show 0 < 4 by decide)
  have hidx := dagIndex_of_dagOf h
  cases f with
  | index => rw [DagReg.code, DagFile.code, dagRegOfCode, if_pos (by omega), hidx _ (by omega)]
  | modify =>
    rw [DagReg.code, DagFile.code, dagRegOfCode, if_neg (by omega), if_pos (by omega), hidx _ (by omega)]
  | length =>
    rw [DagReg.code, DagFile.code, dagRegOfCode, if_neg (by omega), if_neg (by omega), if_pos (by omega),
      hidx _ (by omega)]

theorem code_of_dagRegOfCode {second : Bool} {c : Nat} {x : DagReg} (h : dagRegOfCode second c = .ok x) :
    dagOf x.idx = (if second then 2 else 1) ∧ x.code = c := by
  unfold dagRegOfCode at h
  split_ifs at h <;> cases h
  all_goals
    refine ⟨dagOf_dagIndex second c, ?_⟩
    simp only [DagReg.code, DagFile.code, dagIndex_mod]
    omega

theorem regOfCode_coded (x : CodedReg) : regOfCode x.group x.code = .ok x := by
  cases x with
  | dreg r => simp [regOfCode, CodedReg.group, CodedReg.code, dregOfCode_code, Except.map]
  | dag x =>
    obtain h | h := dagOf_eq x.idx
    · simp [regOfCode, CodedReg.group, CodedReg.code, h, dagRegOfCode_code (second := false) h, Except.map]
    · simp [regOfCode, CodedReg.group, CodedReg.code, h, dagRegOfCode_code (second := true) h, Except.map]
  | px => rfl
  | mstat => rfl

theorem except_map_ok {α β : Type} {r : Except Reject α} {f : α → β} {b : β} (h : r.map f = .ok b) :
    ∃ a, r = .ok a ∧ f a = b := by
  cases r with
  | error e => cases h
  | ok a => exact ⟨a, rfl, Except.ok.inj h⟩

theorem except_ok_bind {α β : Type} (a : α) (f : α → Except Reject β) : (Except.ok a >>= f) = f a := rfl

theorem except_bind_ok {α β : Type} {r : Except Reject α} {f : α → Except Reject β} {b : β}
    (h : (r >>= f) = .ok b) : ∃ a, r = .ok a ∧ f a = .ok b := by
  cases r with
  | error e => cases h
  | ok a => exact ⟨a, rfl, h⟩

theorem coded_of_regOfCode {g c : Nat} {x : CodedReg} (hg : g < 4) (h : regOfCode g c = .ok x) :
    x.group = g ∧ x.code = c := by
  unfold regOfCode at h
  split_ifs at h with h0 h1 h2 hm hp
  · obtain ⟨r, hr, rfl⟩ := except_map_ok h
    exact ⟨h0.symm, code_of_dregOfCode hr⟩
  · obtain ⟨y, hy, rfl⟩ := except_map_ok h
    exact (code_of_dagRegOfCode hy).imp_left (·.trans h1.symm)
  · obtain ⟨y, hy, rfl⟩ := except_map_ok h
    exact (code_of_dagRegOfCode hy).imp_left (·.trans h2.symm)
  · cases h
    exact ⟨by simp [CodedReg.group]; omega, hm.symm⟩
  · cases h
    exact ⟨by simp [CodedReg.group]; omega, hp.symm⟩

/-! ## The fields that the encoder writes -/

theorem field_encodeLong {n : Nat} (hn : n < 16) (x : CodedReg) (a : Addr) :
    field (encodeLong n x a) 23 20 = n ∧ field (encodeLong n x a) 19 18 = x.group ∧
      field (encodeLong n x a) 17 4 = a.toNat ∧ field (encodeLong n x a) 3 0 = x.code := by
  have := coded_code_lt x
  have := coded_group_lt x
  have := a.isLt
  unfold field encodeLong
  omega

theorem field_encodeMove (d s : CodedReg) :
    field (encodeMove d s) 23 12 = 0x0D0 ∧ field (encodeMove d s) 11 10 = d.group ∧
      field (encodeMove d s) 9 8 = s.group ∧ field (encodeMove d s) 7 4 = d.code ∧
      field (encodeMove d s) 3 0 = s.code := by
  have := coded_code_lt d
  have := coded_group_lt d
  have := coded_code_lt s
  have := coded_group_lt s
  unfold field encodeMove
  omega

theorem field_encodeIndirect {top : Nat} (h : top < 2 ^ 16) (r : DReg) (i j : Fin 8) :
    field (encodeIndirect top r i j) 23 8 = top ∧ field (encodeIndirect top r i j) 7 4 = r.code ∧
      field (encodeIndirect top r i j) 3 2 = i.val % 4 ∧ field (encodeIndirect top r i j) 1 0 = j.val % 4 := by
  have := dreg_code_lt r
  unfold field encodeIndirect
  omega

theorem field_encodeTransfer {t : Nat} (h : t < 4) (i : Fin 8) (c : BitVec 4) :
    field (encodeTransfer t i c) 23 8 = 0x0B00 ∧ field (encodeTransfer t i c) 7 6 = i.val % 4 ∧
      field (encodeTransfer t i c) 5 4 = t ∧ field (encodeTransfer t i c) 3 0 = c.toNat := by
  have := c.isLt
  unfold field encodeTransfer
  omega

/-! ## Which row a word's fixed bits select -/

section
variable {w : Nat}

theorem decodeNat_eq_decodeLdi (h : field w 23 20 = 3) : decodeNat w = decodeLdi w :=
  if_pos h

theorem decodeNat_eq_decodeLdDirect (h : field w 23 20 = 8) : decodeNat w = decodeLdDirect w := by
  simp [decodeNat, h]

theorem decodeNat_eq_decodeStDirect (h : field w 23 20 = 9) : decodeNat w = decodeStDirect w := by
  simp [decodeNat, h]

theorem decodeNat_eq_decodeDmIndirect (h : field w 23 21 = 3) : decodeNat w = decodeDmIndirect w := by
  have : field w 23 20 ≠ 3 ∧ field w 23 20 ≠ 8 ∧ field w 23 20 ≠ 9 := by
    unfold field at *; omega
  simp [decodeNat, h, this]

theorem decodeNat_eq_decodeLdPm (h : field w 23 8 = 0x5000) : decodeNat w = decodeLdPm w := by
  have : field w 23 20 = 5 ∧ field w 23 21 = 2 := by
    unfold field at *; omega
  simp [decodeNat, h, this]

theorem decodeNat_eq_decodeStPm (h : field w 23 8 = 0x5800) : decodeNat w = decodeStPm w := by
  have : field w 23 20 = 5 ∧ field w 23 21 = 2 := by
    unfold field at *; omega
  simp [decodeNat, h, this]

theorem decodeNat_eq_decodeMove (h : field w 23 12 = 0x0D0) : decodeNat w = decodeMove w := by
  have : field w 23 20 = 0 ∧ field w 23 21 = 0 ∧ field w 23 8 ≠ 0x5000 ∧ field w 23 8 ≠ 0x5800 := by
    unfold field at *; omega
  simp [decodeNat, h, this]

theorem decodeNat_eq_decodeTransfer (h : field w 23 8 = 0x0B00) : decodeNat w = decodeTransfer w := by
  have : field w 23 20 = 0 ∧ field w 23 21 = 0 ∧ field w 23 12 = 0x0B0 := by
    unfold field at *; omega
  simp [decodeNat, h, this]

end

/-- The fields of an indirect access above its register codes, as parts of bits 23:8. -/
theorem field_of_top (w : Nat) :
    field w 23 21 = field w 23 8 / 2 ^ 13 ∧ field w 20 20 = field w 23 8 / 2 ^ 12 % 2 ∧
      field w 19 8 = field w 23 8 % 2 ^ 12 := by
  unfold field
  omega

/-! ## Decoding an encoding -/

theorem decodeNat_encodeMove (d s : CodedReg) : decodeNat (encodeMove d s) = moveForm d s := by
  obtain ⟨hf, hdg, hsg, hdc, hsc⟩ := field_encodeMove d s
  rw [decodeNat_eq_decodeMove hf, decodeMove, hdg, hsg, hdc, hsc, regOfCode_coded, regOfCode_coded]
  rfl

theorem decodeNat_encodeMove_toDag (x : DagReg) (src : MoveSrc) :
    decodeNat (encodeMove (.dag x) src.coded) = .ok (.movToDag x src) := by
  rw [decodeNat_encodeMove]
  cases src <;> rfl

theorem decodeNat_encodeMove_toPx (src : MoveSrc) : decodeNat (encodeMove .px src.coded) = .ok (.movToPx src) := by
  rw [decodeNat_encodeMove]
  cases src <;> rfl

theorem decodeNat_encodeLong_ldi (x : DagReg) (imm : Addr) :
    decodeNat (encodeLong 3 (.dag x) imm) = .ok (.ldiDag x imm) := by
  obtain ⟨hf, hg, ha, hc⟩ := field_encodeLong (show 3 < 16 by decide) (.dag x) imm
  rw [decodeNat_eq_decodeLdi hf, decodeLdi, hg, ha, hc, regOfCode_coded, BitVec.ofNat_toNat, BitVec.setWidth_eq]
  rfl

theorem directForm_coded (t : DirectReg) : directForm t.coded = .ok t := by
  cases t <;> rfl

theorem decodeNat_encodeLong_ldDirect (t : DirectReg) (a : Addr) :
    decodeNat (encodeLong 8 t.coded a) = .ok (.ldDmDirect t a) := by
  obtain ⟨hf, hg, ha, hc⟩ := field_encodeLong (show 8 < 16 by decide) t.coded a
  rw [decodeNat_eq_decodeLdDirect hf, decodeLdDirect, hg, ha, hc, regOfCode_coded, except_ok_bind, directForm_coded,
    BitVec.ofNat_toNat, BitVec.setWidth_eq]
  rfl

theorem decodeNat_encodeLong_stDirect (t : DirectReg) (a : Addr) :
    decodeNat (encodeLong 9 t.coded a) = .ok (.stDmDirect a t) := by
  obtain ⟨hf, hg, ha, hc⟩ := field_encodeLong (show 9 < 16 by decide) t.coded a
  rw [decodeNat_eq_decodeStDirect hf, decodeStDirect, hg, ha, hc, regOfCode_coded, except_ok_bind, directForm_coded,
    BitVec.ofNat_toNat, BitVec.setWidth_eq]
  rfl

/-- What the decoder reads of an indirect data memory access: bit 20 selects the DAG, and the numbers within it give
the two registers back when both are that DAG's. -/
theorem decodeNat_encodeIndirect_dm {d : Nat} (hd : d = 0 ∨ d = 0x800) (r : DReg) {i j : Fin 8}
    (hij : dagOf i = dagOf j) :
    decodeNat (encodeIndirect (0x6000 + d + 0x1000 * (dagOf i - 1)) r i j) =
      .ok (if d = 0 then .ldDmInd r i j else .stDmInd i j r) := by
  obtain ⟨b, hi⟩ : ∃ b : Bool, dagOf i = if b then 2 else 1 :=
    (dagOf_eq i).elim (fun h => ⟨false, h⟩) fun h => ⟨true, h⟩
  obtain ⟨htop, hr, hii, hjj⟩ := field_encodeIndirect
    (show 0x6000 + d + 0x1000 * (dagOf i - 1) < 2 ^ 16 by have := dagOf_lt i; omega) r i j
  generalize encodeIndirect (0x6000 + d + 0x1000 * (dagOf i - 1)) r i j = w at *
  obtain ⟨h21, h20, h19⟩ := field_of_top w
  have hlo : field w 19 8 = d := by cases b <;> simp [hi] at htop <;> omega
  have hb : (field w 20 20 == 1) = b := by cases b <;> simp [hi] at htop ⊢ <;> omega
  have hfix : field w 23 21 = 3 := by cases b <;> simp [hi] at htop <;> omega
  have hdi : dagIndex b (i.val % 4) = i := dagIndex_of_dagOf hi _ (Nat.mod_mod _ _)
  have hdj : dagIndex b (j.val % 4) = j := dagIndex_of_dagOf (hij ▸ hi) _ (Nat.mod_mod _ _)
  rw [decodeNat_eq_decodeDmIndirect hfix, decodeDmIndirect, hr, hii, hjj, hlo, hb, dregOfCode_code, hdi, hdj]
  obtain rfl | rfl := hd <;> rfl

theorem dagIndex_of_dag2 {i : Fin 8} (h : dagOf i = 2) : dagIndex true (i.val % 4) = i :=
  dagIndex_of_dagOf h _ (Nat.mod_mod _ _)

theorem decodeNat_encodeIndirect_ldPm (r : DReg) {i j : Fin 8} (hi : dagOf i = 2) (hj : dagOf j = 2) :
    decodeNat (encodeIndirect 0x5000 r i j) = .ok (.ldPmInd r i j) := by
  obtain ⟨hf, hr, hii, hjj⟩ := field_encodeIndirect (show 0x5000 < 2 ^ 16 by decide) r i j
  rw [decodeNat_eq_decodeLdPm hf, decodeLdPm, hr, hii, hjj, dregOfCode_code, dagIndex_of_dag2 hi, dagIndex_of_dag2 hj]
  rfl

theorem decodeNat_encodeIndirect_stPm (r : DReg) {i j : Fin 8} (hi : dagOf i = 2) (hj : dagOf j = 2) :
    decodeNat (encodeIndirect 0x5800 r i j) = .ok (.stPmInd i j r) := by
  obtain ⟨hf, hr, hii, hjj⟩ := field_encodeIndirect (show 0x5800 < 2 ^ 16 by decide) r i j
  rw [decodeNat_eq_decodeStPm hf, decodeStPm, hr, hii, hjj, dregOfCode_code, dagIndex_of_dag2 hi, dagIndex_of_dag2 hj]
  rfl

theorem decodeNat_encodeTransfer {t : Nat} (ht : t = 0 ∨ t = 1) {i : Fin 8} (hi : dagOf i = 2) (c : BitVec 4) :
    decodeNat (encodeTransfer t i c) = .ok (if t = 0 then .jumpInd i c else .callInd i c) := by
  obtain ⟨hf, hii, htt, hc⟩ := field_encodeTransfer (show t < 4 by omega) i c
  rw [decodeNat_eq_decodeTransfer hf, decodeTransfer, hii, htt, hc, dagIndex_of_dag2 hi, BitVec.ofNat_toNat,
    BitVec.setWidth_eq]
  obtain rfl | rfl := ht <;> rfl

theorem decodeNat_encodeNat {i : Instr} (h : i.wellFormed = true) : decodeNat (encodeNat i) = .ok i := by
  cases i with
  | ldiDag x imm => exact decodeNat_encodeLong_ldi x imm
  | movToDag x src => exact decodeNat_encodeMove_toDag x src
  | movFromDag r x => exact decodeNat_encodeMove (.dreg r) (.dag x)
  | ldDmDirect t a => exact decodeNat_encodeLong_ldDirect t a
  | stDmDirect a t => exact decodeNat_encodeLong_stDirect t a
  | ldDmInd r i j => exact decodeNat_encodeIndirect_dm (.inl rfl) r (dmOperandOk_iff.1 h)
  | stDmInd i j r => exact decodeNat_encodeIndirect_dm (.inr rfl) r (dmOperandOk_iff.1 h)
  | ldPmInd r i j =>
    obtain ⟨hi, hj⟩ := pmOperandOk_iff.1 h
    exact decodeNat_encodeIndirect_ldPm r hi hj
  | stPmInd i j r =>
    obtain ⟨hi, hj⟩ := pmOperandOk_iff.1 h
    exact decodeNat_encodeIndirect_stPm r hi hj
  | movToPx src => exact decodeNat_encodeMove_toPx src
  | movFromPx r => exact decodeNat_encodeMove (.dreg r) .px
  | enaBitRev => decide
  | disBitRev => decide
  | movToMstat r => exact decodeNat_encodeMove .mstat (.dreg r)
  | jumpInd i c => exact decodeNat_encodeTransfer (.inl rfl) (beq_iff_eq.1 h) c
  | callInd i c => exact decodeNat_encodeTransfer (.inr rfl) (beq_iff_eq.1 h) c

/-- No bit of an instruction is above bit 23. -/
theorem encodeNat_lt (i : Instr) : encodeNat i < 2 ^ 24 := by
  cases i with
  | ldiDag x imm => exact ldiDag x imm
  | movToDag x src => exact movToDag x src
  | movFromDag r x => exact movFromDag r x
  | ldDmDirect t a => exact ldDmDirect t a
  | stDmDirect a t => exact stDmDirect a t
  | ldDmInd r i j => exact ldDmInd r i j
  | stDmInd i j r => exact stDmInd i j r
  | ldPmInd r i j => exact ldPmInd r i j
  | stPmInd i j r => exact stPmInd i j r
  | movToPx src => exact movToPx src
  | movFromPx r => exact movFromPx r
  | enaBitRev => exact enaBitRev
  | disBitRev => exact disBitRev
  | movToMstat r => exact movToMstat r
  | jumpInd i c => exact jumpInd i c
  | callInd i c => exact callInd i c

/-! ## Encoding what was decoded -/

/-- What the decoder owes of each word: a statement, and the one that the word is the encoding of. -/
def Spells (i : Instr) (w : Nat) : Prop :=
  i.wellFormed = true ∧ encodeNat i = w

section
variable {w : Nat} {i : Instr}

theorem moveForm_spells {d s : CodedReg} (h : moveForm d s = .ok i) : Spells i (encodeMove d s) := by
  cases d <;> cases s <;> cases h <;> exact ⟨rfl, rfl⟩

theorem coded_of_directForm {x : CodedReg} {t : DirectReg} (h : directForm x = .ok t) : t.coded = x := by
  cases x <;> cases h <;> rfl

theorem encodeMove_fields {d s : CodedReg} (hw : w < 2 ^ 24) (hf : field w 23 12 = 0x0D0)
    (hd : regOfCode (field w 11 10) (field w 7 4) = .ok d) (hs : regOfCode (field w 9 8) (field w 3 0) = .ok s) :
    encodeMove d s = w := by
  obtain ⟨hdg, hdc⟩ := coded_of_regOfCode (field_lt w 11 10) hd
  obtain ⟨hsg, hsc⟩ := coded_of_regOfCode (field_lt w 9 8) hs
  rw [encodeMove, hdg, hsg, hdc, hsc]
  unfold field at *
  omega

theorem encodeLong_fields {n : Nat} {x : CodedReg} (hw : w < 2 ^ 24) (hf : field w 23 20 = n)
    (hx : regOfCode (field w 19 18) (field w 3 0) = .ok x) : encodeLong n x (BitVec.ofNat 14 (field w 17 4)) = w := by
  obtain ⟨hg, hc⟩ := coded_of_regOfCode (field_lt w 19 18) hx
  rw [encodeLong, hg, hc, toNat_ofNat_field w 17 4, ← hf]
  unfold field
  omega

theorem encodeIndirect_fields {top : Nat} {r : DReg} (hw : w < 2 ^ 24) (hf : field w 23 8 = top)
    (hr : dregOfCode (field w 7 4) = .ok r) (b : Bool) :
    encodeIndirect top r (dagIndex b (field w 3 2)) (dagIndex b (field w 1 0)) = w := by
  rw [encodeIndirect, code_of_dregOfCode hr, dagIndex_mod, dagIndex_mod, ← hf]
  unfold field
  omega

theorem encodeTransfer_fields {t : Nat} (hw : w < 2 ^ 24) (hf : field w 23 8 = 0x0B00) (ht : field w 5 4 = t) :
    encodeTransfer t (dagIndex true (field w 7 6)) (BitVec.ofNat 4 (field w 3 0)) = w := by
  rw [encodeTransfer, dagIndex_mod, toNat_ofNat_field w 3 0, ← ht]
  unfold field at *
  omega

theorem dmOperandOk_dagIndex (b : Bool) (k l : Nat) : dmOperandOk (dagIndex b k) (dagIndex b l) = true := by
  rw [dmOperandOk_iff, dagOf_dagIndex, dagOf_dagIndex]

theorem pmOperandOk_dagIndex (k l : Nat) : pmOperandOk (dagIndex true k) (dagIndex true l) = true :=
  pmOperandOk_iff.2 ⟨dagOf_dagIndex true k, dagOf_dagIndex true l⟩

theorem decodeLdi_spells (hw : w < 2 ^ 24) (hf : field w 23 20 = 3) (h : decodeLdi w = .ok i) : Spells i w := by
  obtain ⟨x, hx, h⟩ := except_bind_ok h
  cases x <;> cases h
  exact ⟨rfl, encodeLong_fields hw hf hx⟩

theorem decodeLdDirect_spells (hw : w < 2 ^ 24) (hf : field w 23 20 = 8) (h : decodeLdDirect w = .ok i) :
    Spells i w := by
  obtain ⟨x, hx, h⟩ := except_bind_ok h
  obtain ⟨t, ht, h⟩ := except_bind_ok h
  cases h
  cases coded_of_directForm ht
  exact ⟨rfl, encodeLong_fields hw hf hx⟩

theorem decodeStDirect_spells (hw : w < 2 ^ 24) (hf : field w 23 20 = 9) (h : decodeStDirect w = .ok i) :
    Spells i w := by
  obtain ⟨x, hx, h⟩ := except_bind_ok h
  obtain ⟨t, ht, h⟩ := except_bind_ok h
  cases h
  cases coded_of_directForm ht
  exact ⟨rfl, encodeLong_fields hw hf hx⟩

/-- Bit 20 of an indirect data memory access is the number of its DAG, less one. -/
theorem dagOf_dagIndex_bit20 (w k : Nat) : dagOf (dagIndex (field w 20 20 == 1) k) - 1 = field w 20 20 := by
  have hlt := field_lt w 20 20
  rw [dagOf_dagIndex]
  split_ifs with h
  · exact (beq_iff_eq.1 h).symm
  · rw [beq_iff_eq] at h
    omega

theorem decodeDmIndirect_spells (hw : w < 2 ^ 24) (hf : field w 23 21 = 3) (h : decodeDmIndirect w = .ok i) :
    Spells i w := by
  obtain ⟨h21, h20, h19⟩ := field_of_top w
  obtain ⟨r, hr, h⟩ := except_bind_ok h
  simp only [] at h
  split_ifs at h with hld hst <;> cases h <;> refine ⟨dmOperandOk_dagIndex _ _ _, encodeIndirect_fields hw ?_ hr _⟩
  · rw [dagOf_dagIndex_bit20]
    omega
  · rw [dagOf_dagIndex_bit20]
    omega

theorem decodeLdPm_spells (hw : w < 2 ^ 24) (hf : field w 23 8 = 0x5000) (h : decodeLdPm w = .ok i) : Spells i w := by
  obtain ⟨r, hr, h⟩ := except_bind_ok h
  cases h
  exact ⟨pmOperandOk_dagIndex _ _, encodeIndirect_fields hw hf hr true⟩

theorem decodeStPm_spells (hw : w < 2 ^ 24) (hf : field w 23 8 = 0x5800) (h : decodeStPm w = .ok i) : Spells i w := by
  obtain ⟨r, hr, h⟩ := except_bind_ok h
  cases h
  exact ⟨pmOperandOk_dagIndex _ _, encodeIndirect_fields hw hf hr true⟩

theorem decodeMove_spells (hw : w < 2 ^ 24) (hf : field w 23 12 = 0x0D0) (h : decodeMove w = .ok i) : Spells i w := by
  obtain ⟨d, hd, h⟩ := except_bind_ok h
  obtain ⟨s, hs, h⟩ := except_bind_ok h
  exact encodeMove_fields hw hf hd hs ▸ moveForm_spells h

theorem decodeMode_spells (hw : w < 2 ^ 24) (hf : field w 23 8 = 0x0C00) (h : decodeMode w = .ok i) : Spells i w := by
  unfold decodeMode at h
  split_ifs at h with hena hdis <;> cases h
  · exact ⟨rfl, by rw [word_eq_fields hw, hf, hena]; rfl⟩
  · exact ⟨rfl, by rw [word_eq_fields hw, hf, hdis]; rfl⟩

theorem decodeTransfer_spells (hw : w < 2 ^ 24) (hf : field w 23 8 = 0x0B00) (h : decodeTransfer w = .ok i) :
    Spells i w := by
  unfold decodeTransfer at h
  split_ifs at h with hjump hcall <;> cases h
  · exact ⟨beq_iff_eq.2 (dagOf_dagIndex true _), encodeTransfer_fields hw hf hjump⟩
  · exact ⟨beq_iff_eq.2 (dagOf_dagIndex true _), encodeTransfer_fields hw hf hcall⟩

theorem decodeNat_spells (hw : w < 2 ^ 24) (h : decodeNat w = .ok i) : Spells i w := by
  unfold decodeNat at h
  split_ifs at h with hldi hld hst hdm hldPm hstPm hmove hmode htransfer
  · exact decodeLdi_spells hw hldi h
  · exact decodeLdDirect_spells hw hld h
  · exact decodeStDirect_spells hw hst h
  · exact decodeDmIndirect_spells hw hdm h
  · exact decodeLdPm_spells hw hldPm h
  · exact decodeStPm_spells hw hstPm h
  · exact decodeMove_spells hw hmove h
  · exact decodeMode_spells hw hmode h
  · exact decodeTransfer_spells hw htransfer h

end

/-! ## The obligations -/

/-- Settles O5: the fields that the encoder writes into a row are the ones that the decoder reads from it, each
register code gives its register back, and no bit is lost above bit 23. -/
theorem decodeReadsEncodeBack : Obligations.DecodeReadsEncodeBack := by
  intro i h
  rw [decode, encode, BitVec.toNat_ofNat, Nat.mod_eq_of_lt (encodeNat_lt i), decodeNat_encodeNat h]

/-- Settles O6: row by row, the fields that the decoder reads and the fixed bits that it checks are the whole word. -/
theorem decodedWordIsItsEncoding : Obligations.DecodedWordIsItsEncoding := by
  intro w i h
  obtain ⟨hwf, henc⟩ := decodeNat_spells w.isLt h
  exact ⟨hwf, by rw [encode, henc, BitVec.ofNat_toNat, BitVec.setWidth_eq]⟩

/-- Settles O7: the decoder runs on sixteen given words. -/
theorem decoderReadsTheSpecsWords : Obligations.DecoderReadsTheSpecsWords := by
  unfold Obligations.DecoderReadsTheSpecsWords
  decide

end Sys2Proof
end

section
/-! PROOF. The two schemes of the index update (41_indirect_addressing.md section 1, 42_modulo_addressing.md section
3) and what they give: linear steps, circular buffers, `AGEN`. -/

namespace Sys2Proof.Machine

/-! ## The linear update -/

/-- The signed value of a pattern is the pattern's number modulo 2^14. -/
theorem sval14_emod (p : Addr) : sval14 p % 16384 = p.toNat := by
  have := p.isLt
  unfold sval14
  split <;> omega

/-- The linear update adds the patterns and drops the carry (decision D2). -/
theorem linearNext_eq_add (i m : Addr) : linearNext i m = i + m := by
  apply addr_ext
  rw [linearNext, trunc14_toNat, Int.add_emod, sval14_emod, BitVec.toNat_add]
  omega

/-- Settles O18: the signed value of M and its pattern differ by a multiple of 2^14, which the 14-bit sum drops. -/
theorem linearUpdateWrapsAtFourteenBits : Obligations.LinearUpdateWrapsAtFourteenBits := by
  intro i m
  refine ⟨linearNext i m, postModify_linear i m, trunc14_toNat _, ?_⟩
  rw [linearNext_eq_add, BitVec.toNat_add]

/-! ## The buffer -/

theorem toNat_pos_of_ne_zero {l : Addr} (h : l ≠ 0) : 0 < l.toNat :=
  Nat.pos_of_ne_zero fun e => h (BitVec.eq_of_toNat_eq e)

theorem length_le_two_pow (l : Addr) : l.toNat ≤ 2 ^ bufferExponent l.toNat :=
  le_two_pow_bufferExponent (Nat.le_of_lt l.isLt)

/-- I is its base and the bits that the mask keeps (R80). -/
theorem bufferBase_add_mod (i len : Nat) : bufferBase i len + i % 2 ^ bufferExponent len = i :=
  Nat.sub_add_cancel (Nat.mod_le _ _)

/-- Inside the buffer means from the base on, by less than the length (R83). -/
theorem inBuffer_iff_bounds {i l : Addr} :
    inBuffer i l = true ↔
      bufferBase i.toNat l.toNat ≤ i.toNat ∧ i.toNat < bufferBase i.toNat l.toNat + l.toNat := by
  have := bufferBase_add_mod i.toNat l.toNat
  rw [inBuffer_iff]
  omega

/-- An address by less than the length above a multiple of `2^n(L)` has that multiple for its base (R79, R83). -/
theorem bufferBase_unique {b i : Nat} {l : Addr} (hb : b % 2 ^ bufferExponent l.toNat = 0) (h0 : b ≤ i)
    (h1 : i < b + l.toNat) : bufferBase i l.toNat = b := by
  obtain ⟨d, rfl⟩ := Nat.exists_eq_add_of_le h0
  exact bufferBase_add hb (by have := length_le_two_pow l; omega)

/-- Settles O20: the base clears the low bits of I, and a buffer no longer than `2^n(L)` has no room for another
multiple of that power between its own base and I. -/
theorem bufferBaseIsTheOnlyPlacement : Obligations.BufferBaseIsTheOnlyPlacement := by
  intro i l _
  refine ⟨bufferBase_mod _ _, inBuffer_iff_bounds.1, ?unique, ?top, ?powerOfTwo⟩
  case unique =>
    intro b hb h0 h1
    have hbase := bufferBase_unique hb h0 h1
    exact ⟨hbase.symm, inBuffer_iff_bounds.2 (hbase.symm ▸ ⟨h0, h1⟩)⟩
  case top => exact (Nat.add_le_add_left (length_le_two_pow l) _).trans (bufferBase_add_le i.isLt)
  case powerOfTwo =>
    intro k hk
    have hle : 2 ^ bufferExponent l.toNat ≤ l.toNat :=
      (Nat.pow_le_pow_right (by decide) (bufferExponent_le_of_le_two_pow hk.le)).trans hk.ge
    exact inBuffer_iff.2 ((Nat.mod_lt _ (Nat.two_pow_pos _)).trans_le hle)

/-! ## The circular update -/

theorem modifyBelowLength_iff {m l : Addr} :
    modifyBelowLength m l = true ↔ -(l.toNat : Int) < sval14 m ∧ sval14 m < l.toNat := by
  rw [modifyBelowLength, decide_eq_true_iff]
  omega

/-- Settles O21: the formula's value fits in 14 bits, so nothing of it is truncated, and an answer of the modulus
logic has passed both conditions. -/
theorem circularUpdateFollowsTheFormula : Obligations.CircularUpdateFollowsTheFormula := by
  intro i m l hl
  constructor
  · intro hi hm
    obtain ⟨v, hv⟩ := postModify_ok_iff.2 (.inr ⟨hi, hm⟩)
    exact ⟨v, hv, postModify_toNat hl hv⟩
  · intro hout v hv
    obtain h | ⟨hi, hm⟩ := postModify_ok_iff.1 ⟨v, hv⟩
    · exact hl h
    · obtain h | h := hout
      · cases h.symm.trans hi
      · cases h.symm.trans hm

/-- The updated index is by less than the length above the old base (R81). -/
theorem postModify_bounds {i m l v : Addr} (hl : l ≠ 0) (h : postModify i m l = .ok v) :
    bufferBase i.toNat l.toNat ≤ v.toNat ∧ v.toNat < bufferBase i.toNat l.toNat + l.toNat := by
  have hpos : (0 : Int) < l.toNat := by exact_mod_cast toNat_pos_of_ne_zero hl
  have hv := postModify_toNat hl h
  have hnonneg := Int.emod_nonneg ((i.toNat : Int) + sval14 m - bufferBase i.toNat l.toNat) hpos.ne'
  have hlt := Int.emod_lt_of_pos ((i.toNat : Int) + sval14 m - bufferBase i.toNat l.toNat) hpos
  omega

theorem postModify_base {i m l v : Addr} (hl : l ≠ 0) (h : postModify i m l = .ok v) :
    bufferBase v.toNat l.toNat = bufferBase i.toNat l.toNat := by
  obtain ⟨h0, h1⟩ := postModify_bounds hl h
  exact bufferBase_unique (bufferBase_mod _ _) h0 h1

theorem postModify_inBuffer {i m l v : Addr} (hl : l ≠ 0) (h : postModify i m l = .ok v) : inBuffer v l = true :=
  inBuffer_iff_bounds.2 (postModify_base hl h ▸ postModify_bounds hl h)

/-- Settles O22: the remainder modulo L is at least 0 and less than L, and the base is the only multiple of `2^n(L)`
that near below. -/
theorem circularUpdateStaysInTheBuffer : Obligations.CircularUpdateStaysInTheBuffer := by
  intro i m l v hl h
  obtain ⟨h0, h1⟩ := postModify_bounds hl h
  exact ⟨h0, h1, postModify_base hl h, postModify_inBuffer hl h⟩

/-- Reducing a number less than one modulus outside the range of remainders takes one correction. -/
theorem emod_eq_correctOnce {z n : Int} (h0 : -n ≤ z) (h1 : z < 2 * n) :
    z % n = if z ≥ n then z - n else if z < 0 then z + n else z := by
  split_ifs
  · rw [← Int.sub_emod_right, Int.emod_eq_of_lt (by omega) (by omega)]
  · rw [← Int.add_emod_right, Int.emod_eq_of_lt (by omega) (by omega)]
  · exact Int.emod_eq_of_lt (by omega) (by omega)

/-- Settles O23: I is less than L above the base and |M| less than L, so I + M is less than L outside the buffer. -/
theorem circularUpdateCorrectsOnce : Obligations.CircularUpdateCorrectsOnce := by
  intro i m l v hl h
  obtain ⟨hin, hm⟩ := (postModify_ok_iff.1 ⟨v, h⟩).resolve_left hl
  obtain ⟨h0, h1⟩ := inBuffer_iff_bounds.1 hin
  obtain ⟨hm0, hm1⟩ := modifyBelowLength_iff.1 hm
  rw [postModify_toNat hl h, emod_eq_correctOnce (by omega) (by omega)]
  split_ifs <;> omega

/-- Settles O25: adding 0 to I leaves it less than L above its base, where the modulus takes nothing off. -/
theorem zeroModifyKeepsTheIndex : Obligations.ZeroModifyKeepsTheIndex := by
  intro i l h
  by_cases hl : l = 0
  · rw [hl, postModify_linear, linearNext_eq_add]
    exact congrArg _ (BitVec.add_zero i)
  · have hin := h.resolve_left hl
    have hpos := toNat_pos_of_ne_zero hl
    have hzero : sval14 0 = 0 := by decide
    have hbelow : modifyBelowLength 0 l = true := modifyBelowLength_iff.2 (by omega)
    obtain ⟨v, hv⟩ := postModify_ok_iff.2 (.inr ⟨hin, hbelow⟩)
    have hnum := circularUpdateCorrectsOnce i 0 l v hl hv
    obtain ⟨h0, h1⟩ := inBuffer_iff_bounds.1 hin
    rw [hv, addr_ext (a := v) (b := i) (by rw [hnum, hzero]; split_ifs <;> omega)]

/-! ## `AGEN` -/

/-- On a legal operand `AGEN` puts out the address and answers the update's result (R67). -/
theorem agen_of_postModify {s : State} {i j : Fin 8} {v : Addr} (hij : dagOf i = dagOf j)
    (hv : postModify (s.i i) (s.m j) (s.l i) = .ok v) : agen s i j = .ok ⟨s.outAddr i, v⟩ :=
  agen_ok_iff.2 ⟨dmOperandOk_iff.2 hij, hv, rfl⟩

/-- Settles O17: the address put out is the state's, and each scheme's update is the formula by its definition. -/
theorem agenGivesAddressAndUpdate : Obligations.AgenGivesAddressAndUpdate := by
  intro s i j
  refine ⟨?linear, ?circular, ?twoDags⟩
  case linear =>
    intro hij hl
    exact agen_of_postModify hij (hl ▸ postModify_linear _ _)
  case circular =>
    intro hij hl hin hm
    exact agen_of_postModify hij ((postModify_circular _ _ hl).trans (modNext_ok_iff.2 ⟨hin, hm, rfl⟩))
  case twoDags =>
    intro hij
    exact agen_illFormed (Bool.eq_false_iff.2 (hij ∘ dmOperandOk_iff.1))

/-! ## The two DAGs -/

/-- `AGEN` reads three DAG registers, so a write of another changes nothing of it. -/
theorem agen_setDagReg {s : State} {x : DagReg} {i j : Fin 8} (v : Addr) (hi : x.idx ≠ i) (hj : x.idx ≠ j) :
    agen (s.setDagReg x v) i j = agen s i j := by
  have hne {f : DagFile} {k : Fin 8} (hk : x.idx ≠ k) : x ≠ ⟨f, k⟩ := fun e => hk (congrArg DagReg.idx e)
  refine agen_congr ?_ ?_ ?_ (s.setDagReg_bitRev x v)
  · rw [State.setDagReg_i, if_neg (hne hi)]
  · rw [State.setDagReg_m, if_neg (hne hj)]
  · rw [State.setDagReg_l, if_neg (hne hi)]

/-- A write of a register of one DAG changes no address generation of the other. -/
theorem agen_setDagReg_otherDag {s : State} {x : DagReg} {i : Fin 8} (j : Fin 8) (v : Addr)
    (h : dagOf x.idx ≠ dagOf i) : agen (s.setDagReg x v) i j = agen s i j := by
  by_cases hij : dagOf i = dagOf j
  · exact agen_setDagReg v (fun e => h (congrArg dagOf e)) fun e => h ((congrArg dagOf e).trans hij.symm)
  · have hill := Bool.eq_false_iff.2 (hij ∘ dmOperandOk_iff.1)
    rw [agen_illFormed hill, agen_illFormed hill]

/-- Writes of two DAG registers of different numbers commute. -/
theorem setDagReg_comm (s : State) {x y : DagReg} (v w : Addr) (h : x.idx ≠ y.idx) :
    (s.setDagReg x v).setDagReg y w = (s.setDagReg y w).setDagReg x v := by
  obtain ⟨f, k⟩ := x
  obtain ⟨g, n⟩ := y
  have hkn : k.val ≠ n.val := fun e => h (Fin.ext e)
  cases f <;> cases g <;>
    simp [State.setDagReg, State.setI, State.setM, State.setL, Vector.set_comm _ _ hkn]

/-- Settles O30: registers of the two DAGs have different numbers, whatever their files. -/
theorem theTwoDagsAreIndependent : Obligations.TheTwoDagsAreIndependent := by
  intro s f g k1 k2 i1 j1 i2 j2 v1 v2 hk1 hi1 hk2 hi2
  refine ⟨agen_setDagReg_otherDag _ _ ?_, agen_setDagReg_otherDag _ _ ?_, setDagReg_comm s v1 v2 ?_⟩
  · simp [hk1, hi2]
  · simp [hk2, hi1]
  · rintro (rfl : k1 = k2)
    cases hk1.symm.trans hk2

/-! ## Reversing N bits (43_bit_reverse.md section 4) -/

theorem linearNext_iterate (d i : Addr) (k : Nat) :
    (fun a => linearNext a d)^[k] i = i + BitVec.ofNat 14 k * d := by
  induction k with
  | zero => simp
  | succ k ih =>
    rw [Function.iterate_succ_apply', ih, linearNext_eq_add, BitVec.ofNat_add, BitVec.add_mul]
    simp [BitVec.add_assoc]

theorem trunc14_two_pow (n : Nat) : trunc14 (2 ^ n) = BitVec.ofNat 14 (2 ^ n) := by
  apply BitVec.eq_of_toNat_eq
  have h := trunc14_toNat (2 ^ n)
  rw [BitVec.toNat_ofNat]
  exact_mod_cast h

/-- A multiple of `2^p` added leaves the low `p` bits. -/
theorem getLsbD_add_mul_two_pow (i : Addr) (k : Nat) {p b : Nat} (hb : b < p) (hp : p ≤ 14) :
    (i + BitVec.ofNat 14 k * BitVec.ofNat 14 (2 ^ p)).getLsbD b = i.getLsbD b := by
  have hsum : i + BitVec.ofNat 14 k * BitVec.ofNat 14 (2 ^ p) = BitVec.ofNat 14 (i.toNat + 2 ^ p * k) := by
    apply BitVec.eq_of_toNat_eq
    simp [Nat.mul_comm]
  have hb14 : decide (b < 14) = true := decide_eq_true (by omega)
  rw [hsum, BitVec.getLsbD_ofNat, hb14, Bool.true_and]
  calc (i.toNat + 2 ^ p * k).testBit b
      _ = ((i.toNat + 2 ^ p * k) % 2 ^ p).testBit b := by rw [Nat.testBit_mod_two_pow, decide_eq_true hb, Bool.true_and]
      _ = (i.toNat % 2 ^ p).testBit b := by rw [Nat.add_mul_mod_self_left]
      _ = i.getLsbD b := by simp [Nat.testBit_mod_two_pow, hb, BitVec.getLsbD]

/-- Settles O28: each step adds `2^(14-N)`, so the low bits stand still, and `2^N` of them add 2^14, which the index
drops. -/
theorem nBitReversalKeepsUpperOutputAndReturns : Obligations.NBitReversalKeepsUpperOutputAndReturns := by
  refine ⟨postModify_linear, fun n i _ hn => ⟨fun k b hb => ?upper, ?returns⟩⟩
  case upper =>
    rw [getLsbD_bitRev14 _ _ (by omega), getLsbD_bitRev14 _ _ (by omega), linearNext_iterate, trunc14_two_pow]
    exact getLsbD_add_mul_two_pow i k (by omega) (by omega)
  case returns =>
    have hround : BitVec.ofNat 14 (2 ^ n) * BitVec.ofNat 14 (2 ^ (14 - n)) = 0 := by
      rw [← BitVec.ofNat_mul, ← Nat.pow_add, Nat.add_sub_cancel' hn]
      rfl
    rw [linearNext_iterate, trunc14_two_pow, hround]
    exact BitVec.add_zero i

/-! ## What an indirect access leaves in the index register -/

theorem selects_iff {ins : Instr} {k : Fin 8} : ins.selects k = true ↔ ∃ j, ins.indirect? = some (k, j) := by
  simp [Instr.selects]

/-- A completed statement with an indirect operand has a legal one, whose update it leaves in the index register. -/
theorem exec_next_indirect {ins : Instr} {i j : Fin 8} {s t : State} (hop : ins.indirect? = some (i, j))
    (h : exec ins s = .next t) : dagOf i = dagOf j ∧ s.nextI i j = .ok (t.i i) := by
  obtain ⟨u, _, hc⟩ := exec_next_cases h
  cases hc with
  | plain hnone => cases hnone.symm.trans hop
  | indirect hsome hok hn =>
    cases hsome.symm.trans hop
    exact ⟨dmOperandOk_iff.1 hok, hn.trans (congrArg _ ((u.setI_i i i _).trans (if_pos rfl)).symm)⟩

/-- Settles O33: the one update an indirect form makes is `AGEN`'s, and an update that answers has met its
conditions. -/
theorem everyIndirectAccessPostModifies : Obligations.EveryIndirectAccessPostModifies := by
  intro ins i j s t hop h
  obtain ⟨hij, hn⟩ := exec_next_indirect hop h
  have hdef : s.UpdateDefined i j := postModify_ok_iff.1 ⟨_, hn⟩
  refine ⟨hij, hdef, hn, fun hm => ?_⟩
  rw [State.nextI, hm, zeroModifyKeepsTheIndex _ _ (hdef.imp_right And.left)] at hn
  exact (Except.ok.inj hn).symm

/-- A completed statement that does not load `I[k]` leaves it in its buffer, at the buffer's base. -/
theorem exec_keeps_buffer {ins : Instr} {s t : State} {k : Fin 8} (h : exec ins s = .next t)
    (hload : ins.loadsDag ⟨.index, k⟩ = false) (hl : s.l k ≠ 0) (hin : inBuffer (s.i k) (s.l k) = true) :
    inBuffer (t.i k) (s.l k) = true ∧ bufferBase (t.i k).toNat (s.l k).toNat = s.baseOf k := by
  cases hsel : ins.selects k with
  | false =>
    obtain ⟨_, _, hi⟩ := dagRegistersChangeOnlyAsSaid ins s t k h
    rw [hi hload hsel]
    exact ⟨hin, rfl⟩
  | true =>
    obtain ⟨j, hop⟩ := selects_iff.1 hsel
    obtain ⟨_, hn⟩ := exec_next_indirect hop h
    exact ⟨postModify_inBuffer hl hn, postModify_base hl hn⟩

/-- Settles O4: an access that selects `I[k]` leaves it the result of the update, which stays in the buffer; a
statement that neither selects nor loads it leaves it as it is, and L with it. -/
theorem stepKeepsCircularBuffer : Obligations.StepKeepsCircularBuffer := by
  intro s t w ins k hin hfetch hdecode hloadI hloadL hstep
  obtain ⟨w', ins', hfetch', hst, hexec⟩ := step_next_iff.1 hstep
  obtain rfl : w = w' := Except.ok.inj (hfetch.symm.trans hfetch')
  obtain rfl : ins = ins' := Except.ok.inj (hdecode.symm.trans (statementOf_ok_iff.1 hst).1)
  obtain ⟨_, hlen, _⟩ := dagRegistersChangeOnlyAsSaid ins s t k hexec
  have hl : t.l k = s.l k := hlen hloadL
  have hkeeps (hne : s.l k ≠ 0) := exec_keeps_buffer hexec hloadI hne (hin hne)
  rw [State.InOwnBuffer, State.baseOf, hl]
  exact ⟨rfl, fun hne => (hkeeps hne).1, fun hne => (hkeeps hne).2⟩

end Sys2Proof.Machine
end

section
/-! PROOF. Reset, and what a step does before it executes (10_state.md sections 5 and 9, 20_memory.md sections 3 and
4). -/

namespace Sys2Proof.Machine

/-! ## Reset -/

theorem reset_dagReg (x : DagReg) : State.reset.dagReg x = 0 := by
  obtain ⟨f, k⟩ := x
  cases f <;> simp [State.reset, State.dagReg, State.i, State.m, State.l]

theorem reset_hasDreg (r : DReg) : State.reset.hasDreg r = true := by
  cases r <;> decide

/-- Settles O1: every register file is a replicated zero, and every data register stands in the list of `DREG`
members or is one of the two that the source names. -/
theorem resetValuesAreTheLogs : Obligations.ResetValuesAreTheLogs :=
  ⟨reset_dagReg, by decide, rfl, rfl, by decide, by decide, rfl, rfl, rfl, rfl, rfl, rfl, rfl, rfl, rfl, rfl,
    reset_hasDreg⟩

/-- Settles O2: the memories and the record are empty lists. -/
theorem resetMeetsInvariant : Obligations.ResetMeetsInvariant :=
  ⟨.nil, .nil, .nil, fun _ h => absurd h List.not_mem_nil⟩

/-! ## The fetch -/

section
variable {s : State}

theorem fetch_of_unbacked (h : s.backed .pm s.pc = false) :
    fetch s = .error (.fault (.unbacked (s.place .pm s.pc))) := by
  rw [fetch, access_of_unbacked h]

/-- The fetch of a cell that the run has written is refused (R43). -/
theorem fetch_of_written (h : s.backed .pm s.pc = true) (hw : s.cell .pm s.pc ∈ s.pmWritten) :
    fetch s = .error (.refuse .fetchOfWrittenWord) := by
  simp [fetch, access_of_backed h, hw]

theorem fetch_of_notLoaded (h : s.backed .pm s.pc = true) (hw : s.cell .pm s.pc ∉ s.pmWritten)
    (hn : s.pmWord? (s.cell .pm s.pc) = none) : fetch s = .error (.refuse .noStatement) := by
  simp [fetch, access_of_backed h, hw, hn]

/-! ## The step, by what the fetch and the decoder answer -/

theorem step_of_fetch_fault {f : Fault} (h : fetch s = .error (.fault f)) : step s = .fault f := by
  simp [step, h]

theorem step_of_fetch_refused {r : Refusal} (h : fetch s = .error (.refuse r)) : step s = .refused r := by
  simp [step, h]

theorem step_of_rejected {w : PmWord} {why : Reject} (hf : fetch s = .ok w) (h : s.statementOf w = .error why) :
    step s = .refused (.notAdmitted why) := by
  simp [step, hf, h]

theorem step_of_statement {w : PmWord} {i : Instr} (hf : fetch s = .ok w) (h : s.statementOf w = .ok i) :
    step s = exec i s := by
  simp [step, hf, h]

theorem statementOf_of_decode_error {w : PmWord} {why : Reject} (h : decode w = .error why) :
    s.statementOf w = .error why := by
  rw [State.statementOf, h]

theorem statementOf_of_not_admits {w : PmWord} {i : Instr} (h : decode w = .ok i) (ha : s.admits i = false) :
    s.statementOf w = .error .outsideDreg := by
  simp [State.statementOf, h, ha]

end

/-! ## The obligations -/

/-- Settles O8: the fetch answers the word at the pc, and the word stands for its instruction exactly when the
platform admits its data registers. -/
theorem stepRunsDecodedInstruction : Obligations.StepRunsDecodedInstruction := by
  intro s w i hb hnw hw hd
  have hf : fetch s = .ok w := fetch_ok_iff.2 ⟨hb, hnw, hw⟩
  exact ⟨fun ha => step_of_statement hf (statementOf_ok_iff.2 ⟨hd, ha⟩),
    fun ha => step_of_rejected hf (statementOf_of_not_admits hd ha)⟩

/-- Settles O9: the three checks of the fetch in their order, then the decoder's. -/
theorem stepStopsBeforeExecuting : Obligations.StepStopsBeforeExecuting := by
  intro s
  exact ⟨fun h => step_of_fetch_fault (fetch_of_unbacked h),
    fun h hw => step_of_fetch_refused (fetch_of_written h hw),
    fun h hw hn => step_of_fetch_refused (fetch_of_notLoaded h hw hn),
    fun _ _ h hnw hw hd =>
      step_of_rejected (fetch_ok_iff.2 ⟨h, hnw, hw⟩) (statementOf_of_decode_error hd)⟩

end Sys2Proof.Machine
end

section
/-! PROOF. Frames: what each statement leaves unchanged when it completes. -/

namespace Sys2Proof.Machine

/-! ## What one write leaves unchanged -/

/-- Everything but the DAG registers, the data registers and the pc is unchanged. -/
def State.SameRest (s t : State) : Prop :=
  t.px = s.px ∧ t.mstat = s.mstat ∧ s.SameMap t ∧ s.SameDm t ∧ s.SamePm t

theorem State.setDagReg_advance_sameRest (s : State) (x : DagReg) (v : Addr) :
    s.SameRest (s.setDagReg x v).advance := by
  simp [State.SameRest, State.SameMap, State.SameDm, State.SamePm]

theorem State.setX_sameRest (s : State) (r : DReg) (v : Word) : s.SameRest (s.setX r v) := by
  simp [State.SameRest, State.SameMap, State.SameDm, State.SamePm]

theorem State.setDagReg_advance_sameData (s : State) (x : DagReg) (v : Addr) :
    s.SameData (s.setDagReg x v).advance := by
  simp [State.SameData]

theorem State.setX_sameDataBut (s : State) (r : DReg) (v : Word) : s.SameDataBut (s.setX r v) r := by
  obtain ⟨hprimary, hsecondary⟩ := s.setX_other_bank r v
  exact ⟨fun q hq => (s.setX_x r q v).trans (if_neg hq.symm), hprimary, hsecondary⟩

/-- The update of an index register, after writes to no DAG register. -/
theorem State.setI_advance_sameDagBut {s u : State} (hu : ∀ y, u.dagReg y = s.dagReg y) (i : Fin 8) (n : Addr) :
    s.SameDagBut (u.setI i n).advance ⟨.index, i⟩ :=
  fun y hy => (u.setDagReg_dagReg_other (x := ⟨.index, i⟩) n hy).trans (hu y)

/-- A data memory store leaves every lane but its two. -/
theorem State.setDmWord_dmByte_ne (s : State) (v : Word) {c k : Nat} (h0 : k ≠ 2 * c) (h1 : k ≠ 2 * c + 1) :
    (s.setDmWord c v).dmByte k = s.dmByte k :=
  s.setDmWord_dmByte_other c v (by omega)

/-- A program memory store leaves every lane but its three. -/
theorem State.setPmWord_pmByte_ne (s : State) (v : PmWord) {c k : Nat} (h0 : k ≠ 3 * c) (h1 : k ≠ 3 * c + 1)
    (h2 : k ≠ 3 * c + 2) : (s.setPmWord c v).pmByte k = s.pmByte k :=
  s.setPmWord_pmByte_other c v (by omega)

theorem State.setBitRev_mstat_getLsbD (s : State) (on : Bool) {k : Nat} (h : k ≠ s.platform.bitRevPos.val) :
    (s.setBitRev on).mstat.getLsbD k = s.mstat.getLsbD k := by
  by_cases hk : k < 7
  · rw [State.setBitRev_mstat, withMstatBit_getLsbD _ _ _ k hk, if_neg h]
  · rw [BitVec.getLsbD_of_ge _ k (by omega), BitVec.getLsbD_of_ge _ k (by omega)]

/-- The mode statements leave the bank, and so every data register, in sight. -/
@[simp] theorem State.setBitRev_x (s : State) (on : Bool) (q : DReg) : (s.setBitRev on).x q = s.x q := by
  simp [State.x]

/-! ## The obligations -/

/-- Settles O49: both statements are one load of a DAG register. -/
theorem frameOfDagRegisterLoads : Obligations.FrameOfDagRegisterLoads := by
  intro x imm src s t h
  obtain ⟨v, rfl⟩ : ∃ v, t = (s.setDagReg x v).advance :=
    h.elim (fun h => ⟨_, execLdiDag_next_iff.1 h⟩) fun h => ⟨_, execMovToDag_next_iff.1 h⟩
  exact ⟨s.setDagReg_advance_sameDagBut x v, s.setDagReg_advance_sameData x v, s.setDagReg_advance_sameRest x v⟩

/-- Settles O50: both statements are one write of a data register, in the bank selected. -/
theorem frameOfDataRegisterMoves : Obligations.FrameOfDataRegisterMoves := by
  intro r x s t h
  obtain ⟨v, rfl⟩ : ∃ v, t = (s.setX r v).advance :=
    h.elim (fun h => ⟨_, execMovFromDag_next_iff.1 h⟩) fun h => ⟨_, execMovFromPx_next_iff.1 h⟩
  exact ⟨s.setX_advance_sameDag r v, s.setX_sameDataBut r v, s.setX_sameRest r v⟩

/-- Settles O51: a load is one write of its register, and the indirect form updates its index register after it. -/
theorem frameOfDataMemoryLoads : Obligations.FrameOfDataMemoryLoads := by
  intro a i j r s t
  refine ⟨fun h => ?dreg, fun x h => ?dag, fun h => ?indirect⟩
  case dreg =>
    obtain ⟨_, rfl⟩ := execLdDmDirect_next_iff.1 h
    exact ⟨s.setX_advance_sameDag r _, s.setX_sameDataBut r _, s.setX_sameRest r _⟩
  case dag =>
    obtain ⟨_, rfl⟩ := execLdDmDirect_next_iff.1 h
    exact ⟨s.setDagReg_advance_sameDagBut x _, s.setDagReg_advance_sameData x _, s.setDagReg_advance_sameRest x _⟩
  case indirect =>
    obtain ⟨_, _, n, _, rfl⟩ := execLdDmInd_next_iff.1 h
    exact ⟨State.setI_advance_sameDagBut (s.setX_dagReg r _) i n, s.setX_sameDataBut r _, s.setX_sameRest r _⟩

/-- Settles O52: a store writes the two lanes of one cell, and the indirect form updates its index register after
it. -/
theorem frameOfDataMemoryStores : Obligations.FrameOfDataMemoryStores := by
  intro a d i j r s t
  constructor
  · intro h
    obtain ⟨_, rfl⟩ := execStDmDirect_next_iff.1 h
    refine ⟨⟨rfl, rfl, rfl⟩, ⟨rfl, rfl⟩, rfl, rfl, ⟨rfl, rfl, rfl⟩, ⟨fun _ => rfl, rfl⟩, ?_⟩
    rintro _ rfl k h0 h1
    exact s.setDmWord_dmByte_ne _ h0 h1
  · intro h
    obtain ⟨_, _, n, _, rfl⟩ := execStDmInd_next_iff.1 h
    refine ⟨State.setI_advance_sameDagBut (fun _ => rfl) i n, ⟨rfl, rfl⟩, rfl, rfl, ⟨rfl, rfl, rfl⟩,
      ⟨fun _ => rfl, rfl⟩, ?_⟩
    rintro _ rfl k h0 h1
    exact s.setDmWord_dmByte_ne _ h0 h1

/-- Settles O53: the load writes its data register, PX and its index register. -/
theorem frameOfProgramMemoryLoad : Obligations.FrameOfProgramMemoryLoad := by
  intro r i j s t h
  obtain ⟨_, _, n, _, rfl⟩ := execLdPmInd_next_iff.1 h
  obtain ⟨_, hmstat, hmap, hdm, hpm⟩ := s.setX_sameRest r (upperOf (s.pmWord (s.cell .pm (s.i i))))
  exact ⟨State.setI_advance_sameDagBut (s.setX_dagReg r _) i n, s.setX_sameDataBut r _, hmstat, hmap, hdm, hpm⟩

/-- Settles O54: the store writes the three lanes of one cell, adds that cell to the record and updates its index
register. -/
theorem frameOfProgramMemoryStore : Obligations.FrameOfProgramMemoryStore := by
  intro r i j s t h
  obtain ⟨_, _, n, _, rfl⟩ := execStPmInd_next_iff.1 h
  refine ⟨State.setI_advance_sameDagBut (fun _ => rfl) i n, ⟨rfl, rfl⟩, rfl, rfl, ⟨rfl, rfl, rfl⟩, fun _ => rfl,
    ?_⟩
  rintro _ rfl
  exact ⟨fun k h0 h1 h2 => s.setPmWord_pmByte_ne _ h0 h1 h2, fun m => mem_insertNat⟩

/-- Settles O55: the move writes PX. -/
theorem frameOfMoveToPx : Obligations.FrameOfMoveToPx := by
  intro src s t h
  obtain rfl := execMovToPx_next_iff.1 h
  exact ⟨s.setPx_advance_sameDag _, ⟨rfl, rfl⟩, rfl, ⟨rfl, rfl, rfl⟩, fun _ => rfl, fun _ => rfl, rfl⟩

/-- Settles O56: each statement is one write of MSTAT, and the two with a keyword write one bit of it, which never
selects the bank of data registers. -/
theorem frameOfModeStatements : Obligations.FrameOfModeStatements := by
  intro r s t
  constructor
  · intro h
    obtain ⟨v, rfl⟩ : ∃ v, t = (s.setMstat v).advance := by
      obtain h | h | h := h
      · exact ⟨_, execEnaBitRev_next_iff.1 h⟩
      · exact ⟨_, execDisBitRev_next_iff.1 h⟩
      · exact ⟨_, execMovToMstat_next_iff.1 h⟩
    exact ⟨⟨rfl, rfl, rfl⟩, ⟨rfl, rfl⟩, rfl, ⟨rfl, rfl, rfl⟩, fun _ => rfl, fun _ => rfl, rfl⟩
  · intro h
    obtain ⟨on, rfl⟩ : ∃ on, t = (s.setBitRev on).advance :=
      h.elim (fun h => ⟨_, execEnaBitRev_next_iff.1 h⟩) fun h => ⟨_, execDisBitRev_next_iff.1 h⟩
    exact ⟨fun k hk => s.setBitRev_mstat_getLsbD on hk, s.setBitRev_x on⟩

end Sys2Proof.Machine
end

section
/-! PROOF. Register loads, moves and direct stores over the DMD bus, and the immediates of a load (30_encoding.md
section 3, 40_dag_register_access.md section 2). -/

namespace Sys2Proof.Machine

/-! ## The state that each statement leaves -/

theorem exec_ldiDag (x : DagReg) (imm : Addr) (s : State) :
    exec (.ldiDag x imm) s = .next (s.setDagReg x imm).advance :=
  execLdiDag_next_iff.2 rfl

theorem exec_stDmDirect (d : DirectReg) {a : Addr} {s : State} (h : s.backed .dm a = true) :
    exec (.stDmDirect a d) s = .next (s.setDmWord (s.cell .dm a) (s.directValue d)).advance :=
  execStDmDirect_next_iff.2 ⟨h, rfl⟩

@[simp] theorem State.setDmWord_dmWord_same (s : State) (c : Nat) (v : Word) : (s.setDmWord c v).dmWord c = v := by
  rw [State.setDmWord_dmWord, if_pos rfl]

/-! ## The obligations -/

/-- Settles O10: the statement is one load of a DAG register, and a loaded length is what the choice of the update
asks. -/
theorem ldiDagLoadsTheImmediate : Obligations.LdiDagLoadsTheImmediate := by
  intro x imm s
  have hx : (s.setDagReg x imm).advance.dagReg x = imm := s.setDagReg_dagReg_same x imm
  obtain ⟨hpx, hmstat, hmap, hdm, hpm⟩ := s.setDagReg_advance_sameRest x imm
  refine ⟨_, exec_ldiDag x imm s, hx, by simp, s.setDagReg_advance_sameDagBut x imm,
    s.setDagReg_advance_sameData x imm, hpx, hmstat, hmap, hdm, hpm, ?minusOne, ?least, ?length⟩
  case minusOne =>
    rintro rfl
    rw [hx]
    decide
  case least =>
    rintro rfl
    rw [hx]
    decide
  case length =>
    intro hfile j
    have hl : (s.setDagReg x imm).advance.l x.idx = imm := by
      rw [State.advance_l, State.setDagReg_l, if_pos (by rw [← hfile])]
    rw [State.nextI, hl]
    rfl

/-- Settles O12: a DAG register takes back from the bus the 14 bits that another put on it, whatever the extension. -/
theorem dagToDagMoveCopies : Obligations.DagToDagMoveCopies := by
  intro x y s
  have hv : dagOfBus (s.moveValue (.dag y)) = s.dagReg y := dagOfBus_busOfDag y.file (s.dagReg y)
  refine ⟨_, exec_movToDag x (.dag y) s, ?_, ?_⟩
  · rw [hv]
    exact s.setDagReg_dagReg_same x _
  · rintro rfl z
    rw [hv, State.advance_dagReg, State.setDagReg_dagReg]
    split_ifs with hz
    · rw [hz]
    · rfl

/-- Settles O16: the store puts the bus value of its register into the cell. -/
theorem stDmDirectStoresTheRegister : Obligations.StDmDirectStoresTheRegister := by
  intro a s hb
  have hword (v : Word) : (s.setDmWord (s.cell .dm a) v).advance.dmWord (s.cell .dm a) = v :=
    s.setDmWord_dmWord_same _ v
  exact ⟨fun r => ⟨_, exec_stDmDirect (.dreg r) hb, hword _, rfl⟩,
    fun x => ⟨_, exec_stDmDirect (.dag x) hb, fun h => (hword _).trans (State.readDag_of_ne_modify h),
      fun h => (hword _).trans (State.readDag_of_modify h), rfl⟩⟩

/-- Settles O46: the check is the range, and the pattern is the value modulo 2^14. -/
theorem immediateRangeIsFourteenBits : Obligations.ImmediateRangeIsFourteenBits := by
  intro z
  refine ⟨fun p hp => ?pattern, ?range, by decide⟩
  case pattern =>
    rw [immOfInt] at hp
    split_ifs at hp
    obtain rfl := Option.some.inj hp
    rw [trunc14_toNat]
    omega
  case range =>
    rw [immOfInt]
    split_ifs with h <;> simp [h]

end Sys2Proof.Machine
end

section
/-! PROOF. The mode statements (43_bit_reverse.md section 3). -/

namespace Sys2Proof.Machine

theorem exec_enaBitRev (s : State) : exec .enaBitRev s = .next (s.setBitRev true).advance :=
  execEnaBitRev_next_iff.2 rfl

theorem exec_disBitRev (s : State) : exec .disBitRev s = .next (s.setBitRev false).advance :=
  execDisBitRev_next_iff.2 rfl

theorem exec_movToMstat (r : DReg) (s : State) :
    exec (.movToMstat r) s = .next (s.setMstat (mstatOfWord (s.x r))).advance :=
  execMovToMstat_next_iff.2 rfl

/-- Setting the mode to what it is keeps MSTAT whole. -/
theorem State.setBitRev_mstat_of_eq {s : State} {on : Bool} (h : s.bitRev = on) : (s.setBitRev on).mstat = s.mstat :=
  h ▸ withMstatBit_same s.mstat s.platform.bitRevPos

theorem State.outAddr_of_reversed {s : State} {i : Fin 8} (hi : dagOf i = 1) (h : s.bitRev = true) :
    s.outAddr i = bitRev14 (s.i i) :=
  if_pos ⟨hi, h⟩

theorem State.outAddr_of_mode_off {s : State} (i : Fin 8) (h : s.bitRev = false) : s.outAddr i = s.i i :=
  if_neg fun ⟨_, hon⟩ => absurd hon (h ▸ Bool.false_ne_true)

theorem getLsbD_mstatOfWord (d : Word) {k : Nat} (hk : k < 7) : (mstatOfWord d).getLsbD k = d.getLsbD k := by
  rw [mstatOfWord, BitVec.getLsbD_setWidth, decide_eq_true hk, Bool.true_and]

/-- Settles O39: the one bit written is the mode. -/
theorem enaBitRevSetsTheMode : Obligations.EnaBitRevSetsTheMode := by
  intro s
  have hon : (s.setBitRev true).advance.bitRev = true := s.setBitRev_bitRev true
  exact ⟨_, exec_enaBitRev s, hon, ⟨rfl, rfl, rfl⟩, rfl, State.setBitRev_mstat_of_eq,
    fun i hi => State.outAddr_of_reversed hi hon⟩

/-- Settles O40: the one bit written is the mode. -/
theorem disBitRevResetsTheMode : Obligations.DisBitRevResetsTheMode := by
  intro s
  have hoff : (s.setBitRev false).advance.bitRev = false := s.setBitRev_bitRev false
  exact ⟨_, exec_disBitRev s, hoff, ⟨rfl, rfl, rfl⟩, rfl, State.setBitRev_mstat_of_eq,
    fun i => State.outAddr_of_mode_off i hoff⟩

/-- Settles O41: MSTAT takes the lower 7 bits in place, so the bit at every position is the source's. -/
theorem movToMstatWritesTheMode : Obligations.MovToMstatWritesTheMode := by
  intro r s
  exact ⟨_, exec_movToMstat r s, getLsbD_mstatOfWord _ s.platform.bitRevPos.isLt,
    fun k hk => getLsbD_mstatOfWord _ hk, rfl⟩

end Sys2Proof.Machine
end

section
/-! PROOF. Indirect access to both memories: when it completes and what it then does, and when it stops
(41_indirect_addressing.md, 44_bus_exchange.md sections 2 and 4, 20_memory.md sections 3 and 4). -/

namespace Sys2Proof.Machine

/-! ## When an indirect access completes -/

section
variable {s : State} {i j : Fin 8}

theorem nextI_of_updateDefined (h : s.UpdateDefined i j) : ∃ v, s.nextI i j = .ok v :=
  postModify_ok_iff.2 h

theorem exec_ldDmInd_completes (r : DReg) (hij : dagOf i = dagOf j) (h : s.UpdateDefined i j)
    (hb : s.backed .dm (s.outAddr i) = true) : ∃ t, exec (.ldDmInd r i j) s = .next t := by
  obtain ⟨v, hv⟩ := nextI_of_updateDefined h
  exact ⟨_, execLdDmInd_next_iff.2 ⟨dmOperandOk_iff.2 hij, hb, v, hv, rfl⟩⟩

theorem exec_stDmInd_completes (r : DReg) (hij : dagOf i = dagOf j) (h : s.UpdateDefined i j)
    (hb : s.backed .dm (s.outAddr i) = true) : ∃ t, exec (.stDmInd i j r) s = .next t := by
  obtain ⟨v, hv⟩ := nextI_of_updateDefined h
  exact ⟨_, execStDmInd_next_iff.2 ⟨dmOperandOk_iff.2 hij, hb, v, hv, rfl⟩⟩

theorem exec_ldPmInd_completes (r : DReg) (hi : dagOf i = 2) (hj : dagOf j = 2) (h : s.UpdateDefined i j)
    (hb : s.backed .pm (s.i i) = true) : ∃ t, exec (.ldPmInd r i j) s = .next t := by
  obtain ⟨v, hv⟩ := nextI_of_updateDefined h
  exact ⟨_, execLdPmInd_next_iff.2 ⟨pmOperandOk_iff.2 ⟨hi, hj⟩, hb, v, hv, rfl⟩⟩

theorem exec_stPmInd_completes (r : DReg) (hi : dagOf i = 2) (hj : dagOf j = 2) (h : s.UpdateDefined i j)
    (hb : s.backed .pm (s.i i) = true) : ∃ t, exec (.stPmInd i j r) s = .next t := by
  obtain ⟨v, hv⟩ := nextI_of_updateDefined h
  exact ⟨_, execStPmInd_next_iff.2 ⟨pmOperandOk_iff.2 ⟨hi, hj⟩, hb, v, hv, rfl⟩⟩

end

/-! ## The word that a completed access moves -/

section
variable {s t : State} {i j : Fin 8} {r : DReg} {a : Addr}

theorem x_of_ldDmDirect (h : exec (.ldDmDirect (.dreg r) a) s = .next t) : t.x r = s.dmWord (s.cell .dm a) := by
  obtain ⟨_, rfl⟩ := execLdDmDirect_next_iff.1 h
  exact s.setX_x_same r _

theorem dmWord_of_stDmDirect (h : exec (.stDmDirect a (.dreg r)) s = .next t) (c : Nat) :
    t.dmWord c = if c = s.cell .dm a then s.x r else s.dmWord c := by
  obtain ⟨_, rfl⟩ := execStDmDirect_next_iff.1 h
  exact s.setDmWord_dmWord _ c _

theorem x_of_ldDmInd (h : exec (.ldDmInd r i j) s = .next t) : t.x r = s.dmWord (s.cell .dm (s.outAddr i)) := by
  obtain ⟨_, _, _, _, rfl⟩ := execLdDmInd_next_iff.1 h
  exact s.setX_x_same r _

theorem dmWord_of_stDmInd (h : exec (.stDmInd i j r) s = .next t) :
    t.dmWord (s.cell .dm (s.outAddr i)) = s.x r := by
  obtain ⟨_, _, _, _, rfl⟩ := execStDmInd_next_iff.1 h
  exact s.setDmWord_dmWord_same _ _

theorem x_of_ldPmInd (h : exec (.ldPmInd r i j) s = .next t) : t.x r = upperOf (s.pmWord (s.cell .pm (s.i i))) := by
  obtain ⟨_, _, _, _, rfl⟩ := execLdPmInd_next_iff.1 h
  exact s.setX_x_same r _

theorem px_of_ldPmInd (h : exec (.ldPmInd r i j) s = .next t) : t.px = lowerOf (s.pmWord (s.cell .pm (s.i i))) := by
  obtain ⟨_, _, _, _, rfl⟩ := execLdPmInd_next_iff.1 h
  rfl

theorem pmWord_of_stPmInd (h : exec (.stPmInd i j r) s = .next t) (c : Nat) :
    t.pmWord c = if c = s.cell .pm (s.i i) then joinWord (s.x r) s.px else s.pmWord c := by
  obtain ⟨_, _, _, _, rfl⟩ := execStPmInd_next_iff.1 h
  exact s.setPmWord_pmWord _ c _

theorem pmWord_of_stPmInd_same (h : exec (.stPmInd i j r) s = .next t) :
    t.pmWord (s.cell .pm (s.i i)) = joinWord (s.x r) s.px :=
  (pmWord_of_stPmInd h _).trans (if_pos rfl)

/-! ## What every completed access does beside -/

theorem loadsDag_of_indirect {ins : Instr} (h : ins.indirect? = some (i, j)) (y : DagReg) :
    ins.loadsDag y = false := by
  cases ins <;> cases h <;> rfl

/-- The index register takes the updated index, no other DAG register changes, and the next statement follows. -/
theorem exec_next_postModified {ins : Instr} (hop : ins.indirect? = some (i, j)) (h : exec ins s = .next t) :
    s.nextI i j = .ok (t.i i) ∧ s.SameDagBut t ⟨.index, i⟩ ∧ t.pc = nextPc s.pc := by
  obtain ⟨_, hn⟩ := exec_next_indirect hop h
  obtain ⟨hpc, _⟩ := completedStatementGoesToTheNext ins s t h
  obtain ⟨u, hw, hc⟩ := exec_next_cases h
  refine ⟨hn, ?_, hpc⟩
  cases hc with
  | plain hnone => cases hnone.symm.trans hop
  | indirect hsome =>
    cases hsome.symm.trans hop
    exact State.setI_advance_sameDagBut (fun y => hw.dagReg_eq (loadsDag_of_indirect hop y)) i _

end

theorem dagOf_eq_one_iff {i : Fin 8} : dagOf i = 1 ↔ i.val < 4 := by
  unfold dagOf
  split <;> simp_all

theorem State.outAddr_eq (s : State) (i : Fin 8) :
    s.outAddr i = if i.val < 4 ∧ s.bitRev = true then bitRev14 (s.i i) else s.i i := by
  simp only [State.outAddr, outputAddr, dagOf_eq_one_iff]

/-! ## The obligations on completed accesses -/

/-- Settles O31: under these conditions nothing stops the load, and its one write beside the post-modify is the
register. -/
theorem ldDmIndLoadsAndPostModifies : Obligations.LdDmIndLoadsAndPostModifies := by
  intro s i j r hij hdef hb
  obtain ⟨t, h⟩ := exec_ldDmInd_completes r hij hdef hb
  exact ⟨t, h, x_of_ldDmInd h, exec_next_postModified rfl h⟩

/-- Settles O32: under these conditions nothing stops the store, and it writes the cell of the address put out. -/
theorem stDmIndStoresAndPostModifies : Obligations.StDmIndStoresAndPostModifies := by
  intro s i j r hij hdef hb
  obtain ⟨t, h⟩ := exec_stDmInd_completes r hij hdef hb
  exact ⟨t, h, dmWord_of_stDmInd h, exec_next_postModified rfl h⟩

/-- Settles O34: DAG2's address is put out as it is, and the load splits the word of its cell. -/
theorem ldPmIndSplitsTheWord : Obligations.LdPmIndSplitsTheWord := by
  intro s i j r hi hj hdef hb
  obtain ⟨t, h⟩ := exec_ldPmInd_completes r hi hj hdef hb
  exact ⟨t, h, x_of_ldPmInd h, px_of_ldPmInd h, exec_next_postModified rfl h⟩

/-- Settles O35: DAG2's address is put out as it is, and the store joins the register and PX, which it only reads. -/
theorem stPmIndJoinsTheWord : Obligations.StPmIndJoinsTheWord := by
  intro s i j r hi hj hdef hb
  obtain ⟨t, h⟩ := exec_stPmInd_completes r hi hj hdef hb
  have hpx : t.px = s.px := pxChangesOnlyAsSaid _ s t h nofun nofun
  exact ⟨t, h, pmWord_of_stPmInd_same h, hpx, exec_next_postModified rfl h⟩

/-- Settles O27: only the address put out depends on the mode; the update is of the index as it stands, and the
operands of program memory are DAG2's, whose addresses are never reversed. -/
theorem reversalIsDag1sAddressOnly : Obligations.ReversalIsDag1sAddressOnly := by
  intro s t i j r
  rw [← State.outAddr_eq]
  exact ⟨fun h => ⟨x_of_ldDmInd h, (exec_next_indirect rfl h).2⟩,
    fun h => ⟨dmWord_of_stDmInd h, (exec_next_indirect rfl h).2⟩,
    fun h => ⟨x_of_ldPmInd h, (exec_next_indirect rfl h).2⟩,
    fun h => ⟨pmWord_of_stPmInd_same h, (exec_next_indirect rfl h).2⟩⟩

/-- Settles O38: the store joins the two parts that the load has split. -/
theorem loadThenStoreCopiesAllBits : Obligations.LoadThenStoreCopiesAllBits := by
  intro s t u i j i2 j2 r hload hstore
  rw [pmWord_of_stPmInd_same hstore, x_of_ldPmInd hload, px_of_ldPmInd hload, joinWord_parts]

/-! ## Stops -/

section
variable {s : State} {i j : Fin 8} {e : Stop}

theorem exec_dmInd_of_agen_error (r : DReg) (h : agen s i j = .error e) :
    exec (.ldDmInd r i j) s = finish (.error e) ∧ exec (.stDmInd i j r) s = finish (.error e) := by
  simp [exec, execLdDmInd, execStDmInd, h, bind, Except.bind]

theorem exec_pmInd_of_agenPm_error (r : DReg) (h : agenPm s i j = .error e) :
    exec (.ldPmInd r i j) s = finish (.error e) ∧ exec (.stPmInd i j r) s = finish (.error e) := by
  simp [exec, execLdPmInd, execStPmInd, h, bind, Except.bind]

theorem exec_dmInd_unbacked (r : DReg) {g : AgenResult} (h : agen s i j = .ok g) (hb : s.backed .dm g.out = false) :
    exec (.ldDmInd r i j) s = .fault (.unbacked (s.place .dm g.out)) ∧
      exec (.stDmInd i j r) s = .fault (.unbacked (s.place .dm g.out)) := by
  simp [exec, execLdDmInd, execStDmInd, h, bind, Except.bind, readDm_unbacked hb, writeDm_unbacked _ hb, finish]

theorem exec_pmInd_unbacked (r : DReg) {g : AgenResult} (h : agenPm s i j = .ok g) (hb : s.backed .pm g.out = false) :
    exec (.ldPmInd r i j) s = .fault (.unbacked (s.place .pm g.out)) ∧
      exec (.stPmInd i j r) s = .fault (.unbacked (s.place .pm g.out)) := by
  simp [exec, execLdPmInd, execStPmInd, h, bind, Except.bind, readPm_unbacked hb, writePm_unbacked _ hb, finish]

theorem exec_dmDirect_unbacked (d : DirectReg) {a : Addr} (hb : s.backed .dm a = false) :
    exec (.ldDmDirect d a) s = .fault (.unbacked (s.place .dm a)) ∧
      exec (.stDmDirect a d) s = .fault (.unbacked (s.place .dm a)) := by
  simp [exec, execLdDmDirect, execStDmDirect, bind, Except.bind, readDm_unbacked hb, writeDm_unbacked _ hb, finish]

/-- I outside its buffer stops the update (R83). -/
theorem nextI_outside (j : Fin 8) (hl : s.l i ≠ 0) (h : inBuffer (s.i i) (s.l i) = false) :
    s.nextI i j = .error (.refuse .indexOutsideBuffer) :=
  (postModify_circular _ _ hl).trans (modNext_outside _ h)

/-- A modify value as long as the buffer stops the update (R82). -/
theorem nextI_tooLong (hl : s.l i ≠ 0) (h : inBuffer (s.i i) (s.l i) = true)
    (hm : modifyBelowLength (s.m j) (s.l i) = false) : s.nextI i j = .error (.refuse .modifyNotBelowLength) :=
  (postModify_circular _ _ hl).trans (modNext_tooLong h hm)

end

/-- Settles O24: the update stops with the name of its reason, and each form passes it on before it reaches memory. -/
theorem updateWithoutResultIsRefused : Obligations.UpdateWithoutResultIsRefused := by
  intro s i j r hl
  constructor
  · intro hij
    have hok := dmOperandOk_iff.2 hij
    exact ⟨fun h => exec_dmInd_of_agen_error r (agen_refused hok (nextI_outside j hl h)),
      fun h hm => exec_dmInd_of_agen_error r (agen_refused hok (nextI_tooLong hl h hm))⟩
  · intro hi hj
    have hok := pmOperandOk_iff.2 ⟨hi, hj⟩
    exact ⟨fun h => exec_pmInd_of_agenPm_error r (agenPm_refused hok (nextI_outside j hl h)),
      fun h hm => exec_pmInd_of_agenPm_error r (agenPm_refused hok (nextI_tooLong hl h hm))⟩

/-- Settles O44: with an address put out, the access is the first thing that can stop, and it names its place. -/
theorem unbackedAccessHasNoStep : Obligations.UnbackedAccessHasNoStep := by
  intro s i j r a d
  refine ⟨exec_dmDirect_unbacked d, fun hij hdef hb => ?dm, fun hi hj hdef hb => ?pm⟩
  case dm =>
    obtain ⟨v, hv⟩ := nextI_of_updateDefined hdef
    exact exec_dmInd_unbacked r (agen_of_postModify hij hv) hb
  case pm =>
    obtain ⟨v, hv⟩ := nextI_of_updateDefined hdef
    exact exec_pmInd_unbacked r (agenPm_ok_iff (g := ⟨s.i i, v⟩).2 ⟨pmOperandOk_iff.2 ⟨hi, hj⟩, hv, rfl⟩) hb

/-- Settles O45: the well-formedness check and `AGEN` ask the same of an operand. -/
theorem illFormedOperandsAreRejected : Obligations.IllFormedOperandsAreRejected := by
  intro s i j r
  constructor
  · intro hij
    have hill : dmOperandOk i j = false := Bool.eq_false_iff.2 (hij ∘ dmOperandOk_iff.1)
    exact ⟨hill, hill, exec_dmInd_of_agen_error r (agen_illFormed hill)⟩
  · intro hij
    have hill : pmOperandOk i j = false :=
      Bool.eq_false_iff.2 fun hok => (not_and_or.2 hij) (pmOperandOk_iff.1 hok)
    exact ⟨hill, hill, exec_pmInd_of_agenPm_error r (agenPm_illFormed hill)⟩

/-! ## A load after a store -/

theorem upperOf_joinWord (hi : Word) (lo : Byte) : upperOf (joinWord hi lo) = hi :=
  BitVec.extractLsb'_append_eq_left

theorem lowerOf_joinWord (hi : Word) (lo : Byte) : lowerOf (joinWord hi lo) = lo :=
  BitVec.extractLsb'_append_eq_right

/-- Settles O47: the store changes no other cell, and no cell's address. -/
theorem loadReturnsTheLastStore : Obligations.LoadReturnsTheLastStore := by
  intro s t u a b q r hstore hload
  obtain ⟨_, rfl⟩ := execStDmDirect_next_iff.1 hstore
  have hx := (x_of_ldDmDirect hload).trans (dmWord_of_stDmDirect hstore _)
  exact ⟨fun hc => hx.trans (if_pos hc.symm), fun hc => hx.trans (if_neg fun e => hc e.symm)⟩

/-- Outside every overlay region the cell is the same under every selection (R36). -/
theorem cellOf_eq_cell_of_common {s : State} {sp : Space} {a : Addr} (sel : OvlSel)
    (h : inOverlay s.platform sp a = false) : cellOf s.platform sp sel a = s.cell sp a :=
  (cellOf_common sel h).trans (cellOf_common (s.sel sp) h).symm

theorem platform_of_exec {ins : Instr} {s t : State} (h : exec ins s = .next t) : t.platform = s.platform := by
  obtain ⟨⟨_, _, hplatform⟩, _⟩ := modeAndOverlaysChangeOnlyAsSaid ins s t h
  exact hplatform

/-- Data memory holds the same words under every selection. -/
theorem dmWord_withDmovlay (s : State) (sel : OvlSel) (c : Nat) :
    State.dmWord { s with dmovlay := sel } c = s.dmWord c := rfl

/-- Program memory holds the same words under every selection. -/
theorem pmWord_withPmovlay (s : State) (sel : OvlSel) (c : Nat) :
    State.pmWord { s with pmovlay := sel } c = s.pmWord c := rfl

theorem cell_withDmovlay (s : State) (sel : OvlSel) (a : Addr) :
    State.cell { s with dmovlay := sel } .dm a = cellOf s.platform .dm sel a := rfl

theorem cell_withPmovlay (s : State) (sel : OvlSel) (a : Addr) :
    State.cell { s with pmovlay := sel } .pm a = cellOf s.platform .pm sel a := rfl

/-- The word that a load under a selection reads after a store. -/
theorem x_of_ldDmDirect_under {s t u : State} {sel : OvlSel} {a : Addr} {q r : DReg}
    (hstore : exec (.stDmDirect a (.dreg q)) s = .next t)
    (hload : exec (.ldDmDirect (.dreg r) a) { t with dmovlay := sel } = .next u) :
    u.x r = if cellOf s.platform .dm sel a = s.cell .dm a then s.x q else s.dmWord (cellOf s.platform .dm sel a) := by
  rw [x_of_ldDmDirect hload, dmWord_withDmovlay, cell_withDmovlay, platform_of_exec hstore,
    dmWord_of_stDmDirect hstore]

/-- The two parts of the word that a program memory load under a selection reads after a store. -/
theorem joinWord_of_ldPmInd_under {s t u : State} {sel : OvlSel} {i j i2 j2 : Fin 8} {q r : DReg}
    (hstore : exec (.stPmInd i j q) s = .next t) (hi : t.i i2 = s.i i)
    (hload : exec (.ldPmInd r i2 j2) { t with pmovlay := sel } = .next u) :
    joinWord (u.x r) u.px =
      if cellOf s.platform .pm sel (s.i i) = s.cell .pm (s.i i) then joinWord (s.x q) s.px
      else s.pmWord (cellOf s.platform .pm sel (s.i i)) := by
  have hindex : State.i { t with pmovlay := sel } i2 = s.i i := hi
  rw [x_of_ldPmInd hload, px_of_ldPmInd hload, joinWord_parts, pmWord_withPmovlay, cell_withPmovlay, hindex,
    platform_of_exec hstore, pmWord_of_stPmInd hstore]

theorem joinWord_inj {hi hi' : Word} {lo lo' : Byte} (h : joinWord hi lo = joinWord hi' lo') : hi = hi' ∧ lo = lo' :=
  ⟨by rw [← upperOf_joinWord hi lo, h, upperOf_joinWord], by rw [← lowerOf_joinWord hi lo, h, lowerOf_joinWord]⟩

/-- Settles O48: the load reads the cell of its own selection, which is the cell stored to exactly when the platform's
table gives the two selections the same one, and always where it lists no route. -/
theorem overlaySelectionChoosesTheCell : Obligations.OverlaySelectionChoosesTheCell := by
  intro s t u sel a i j i2 j2 q r
  refine ⟨fun hstore hload => ?dm, fun hstore hi hload => ?pm, fun _ _ h => cellOf_route h⟩
  case dm =>
    have hx := x_of_ldDmDirect_under hstore hload
    have hsame (hc : cellOf s.platform .dm sel a = s.cell .dm a) : u.x r = s.x q := hx.trans (if_pos hc)
    exact ⟨hsame, fun hc => hx.trans (if_neg hc), fun h => hsame (cellOf_eq_cell_of_common sel h)⟩
  case pm =>
    have hword := joinWord_of_ldPmInd_under hstore hi hload
    have hsame (hc : cellOf s.platform .pm sel (s.i i) = s.cell .pm (s.i i)) : u.x r = s.x q ∧ u.px = s.px :=
      joinWord_inj (hword.trans (if_pos hc))
    exact ⟨hsame, fun hc => hword.trans (if_neg hc), fun h => hsame (cellOf_eq_cell_of_common sel h)⟩

end Sys2Proof.Machine
end
